-- ==== Sys2Proof/Word.lean ====
section
/-! DEFINITION. The widths of the block's values (spec 00_scope.md R7, 30_encoding.md R80). -/

namespace Sys2Proof

/-- An unsigned 8-bit value (R7). -/
abbrev Byte := BitVec 8

/-- "4-bit half of a byte; this controller's native pixel intensity unit" (R7, R14). -/
abbrev Nibble := BitVec 4

/-- A 16-bit argument field of a request (R80). -/
abbrev Arg := BitVec 16

/-- A request word: `op` in bits 103:96, then `a0` to `a5` (R80). -/
abbrev Request := BitVec 104

/-- A signal level, 0 or 1 (R7): `true` is 1. -/
abbrev Level := Bool

end Sys2Proof
end

