-- ==== Sys2Proof/Machine/Memory.lean ====
section
/-! DEFINITION. A byte memory as a sorted list of cells, the form of the framebuffer and of the source-bitmap space (spec
20_memory.md R50, R57, R58: every access is one byte at a byte index). -/

namespace Sys2Proof.Machine

/-- A byte memory: the listed cells, addresses strictly rising, no cell equal to what an unlisted address reads as. -/
abbrev Mem := List Host.Cell

/-- What an unlisted address reads as. DESIGN CHOICE (log entries 5 and 8, unsafe): the spec leaves the contents after reset
unspecified (10_state.md R32); `State.construct` takes any contents, and every statement holds for every memory. -/
def unlisted : Byte := 0x00#8

/-- `MemRead(a, 1)` (R10). -/
def Mem.read : Mem → Nat → Byte
  | [], _ => unlisted
  | (k, v) :: rest, a => if k = a then v else Mem.read rest a

/-- `MemWrite(a, 1, v)` (R10), keeping the canonical form. -/
def Mem.write : Mem → Nat → Byte → Mem
  | [], a, v => if v = unlisted then [] else [(a, v)]
  | (k, w) :: rest, a, v =>
    if k < a then (k, w) :: Mem.write rest a v
    else if k = a then (if v = unlisted then rest else (a, v) :: rest)
    else if v = unlisted then (k, w) :: rest
    else (a, v) :: (k, w) :: rest

/-- `MemWrite(i, 1, v)` for every `i` from 0 to `n - 1` of a memory of `n` bytes (R187, R188). -/
def Mem.fill (n : Nat) (v : Byte) : Mem :=
  if v = unlisted then [] else (List.range n).map (fun i => (i, v))

/-- The bytes at 0 to `n - 1`, in ascending order (20_memory.md R56). -/
def Mem.bytes (m : Mem) (n : Nat) : List Byte := (List.range n).map (Mem.read m)

/-- The cells are canonical from address `lo` on. -/
def Mem.wfFrom : Nat → Mem → Bool
  | _, [] => true
  | lo, (k, v) :: rest => decide (lo ≤ k) && decide (v ≠ unlisted) && Mem.wfFrom (k + 1) rest

/-- The canonical form: addresses strictly rising, no cell that reads as an unlisted address. -/
def Mem.wf (m : Mem) : Bool := Mem.wfFrom 0 m

/-- Every listed address exists in a memory of `n` bytes. -/
def Mem.within (m : Mem) (n : Nat) : Bool := m.all (fun c => decide (c.1 < n))

end Sys2Proof.Machine
end

