-- ==== Sys2Proof/Syntax.lean ====
section
/-! DEFINITION. The 27 host operations of OPSET-1 (spec 30_encoding.md R84) with their operands (R81 to R83). -/

namespace Sys2Proof

/-- The colour field (R83): a kind, and for the kind RAW a level. -/
inductive Color where
  | off
  | on
  | inv
  | raw (level : Nibble)
  deriving DecidableEq, Repr

/-- One host operation (R84). Coordinates, lengths and sizes are the signed integers the rules compute with (R82, R9);
`WellFormed` says which of them a request can carry. -/
inductive Instr where
  | sendcmd (byte : Byte)
  | senddata (byte : Byte)
  | pwron
  | pwroff
  | setwin (cs ce rs re : Byte)
  | setcontrast (byte : Byte)
  | setremap (p0 p1 : Byte)
  | selgray
  | cfgscroll (start stop : Byte) (left diagonal : Bool)
  | scrollon
  | scrolloff
  | setstartline (byte : Byte)
  | beginInit
  | setpixel (x y : Int) (color : Color)
  | vline (x y len : Int) (color : Color)
  | hline (x y len : Int) (color : Color)
  | bitmap (x y : Int) (src : Arg) (w h : Int) (color : Color)
  | fill (level : Nibble)
  | clear
  | display (flag : Bool)
  | startscrollright (start stop : Byte)
  | startscrollleft (start stop : Byte)
  | startscrolldiagright (start stop : Byte)
  | startscrolldiagleft (start stop : Byte)
  | stopscroll
  | invertdisplay (flag : Bool)
  | dim (flag : Bool)
  deriving DecidableEq, Repr

end Sys2Proof
end

