-- ==== Sys2Proof/Config.lean ====
section
/-! DEFINITION. The configuration record CFG (spec 00_scope.md R6), as plain data. It is a field of State, because the spec
lists it in the state (10_state.md R20); no operation writes it (R24). What is computed from it is in Machine/Params.lean. -/

namespace Sys2Proof

/-- The controller commands the source names: the keys of `CFG.CMD` (41_command_encoder.md R142). -/
inductive CmdKey where
  | cmdLock
  | displayOff
  | clockDiv
  | muxRatio
  | displayOffset
  | startLine
  | remap
  | gpio
  | funcSel
  | enhA
  | contrast
  | masterCurrent
  | graySelect
  | phaseLen
  | enhB
  | prechargeV
  | precharge2
  | vcomh
  | normalDisplay
  | invertDisplay
  | exitPartial
  | displayOn
  | setColumn
  | setRow
  | writeRam
  | scrollActivate
  | scrollDeactivate
  deriving DecidableEq, Repr

/-- One entry of `CFG.CMD`: the opcode byte and the parameter count (R142). -/
structure CmdEntry where
  opcode : Byte
  n : Nat
  deriving DecidableEq, Repr

/-- `CFG.CMD`: command name to opcode byte and parameter count (R6, R142). -/
structure CmdTable where
  cmdLock : CmdEntry
  displayOff : CmdEntry
  clockDiv : CmdEntry
  muxRatio : CmdEntry
  displayOffset : CmdEntry
  startLine : CmdEntry
  remap : CmdEntry
  gpio : CmdEntry
  funcSel : CmdEntry
  enhA : CmdEntry
  contrast : CmdEntry
  masterCurrent : CmdEntry
  graySelect : CmdEntry
  phaseLen : CmdEntry
  enhB : CmdEntry
  prechargeV : CmdEntry
  precharge2 : CmdEntry
  vcomh : CmdEntry
  normalDisplay : CmdEntry
  invertDisplay : CmdEntry
  exitPartial : CmdEntry
  displayOn : CmdEntry
  setColumn : CmdEntry
  setRow : CmdEntry
  writeRam : CmdEntry
  scrollActivate : CmdEntry
  scrollDeactivate : CmdEntry
  deriving DecidableEq, Repr

/-- The 21 steps of `begin`: the keys of `CFG.INIT` (R155, R157). -/
inductive BeginKey where
  | cmdLock
  | displayOff
  | clockDiv
  | muxRatio
  | displayOffset
  | startLine
  | remap
  | gpio
  | funcSel
  | enhA
  | contrast
  | masterCurrent
  | graySelect
  | phaseLen
  | enhB
  | prechargeV
  | precharge2
  | vcomh
  | normalDisplay
  | exitPartial
  | displayOn
  deriving DecidableEq, Repr

/-- `CFG.INIT`: the parameter bytes of each `begin` step (R6, R157), and the contrast byte of the default dim mode (R154). -/
structure InitTable where
  cmdLock : List Byte
  displayOff : List Byte
  clockDiv : List Byte
  muxRatio : List Byte
  displayOffset : List Byte
  startLine : List Byte
  remap : List Byte
  gpio : List Byte
  funcSel : List Byte
  enhA : List Byte
  contrast : List Byte
  masterCurrent : List Byte
  graySelect : List Byte
  phaseLen : List Byte
  enhB : List Byte
  prechargeV : List Byte
  precharge2 : List Byte
  vcomh : List Byte
  normalDisplay : List Byte
  exitPartial : List Byte
  displayOn : List Byte
  dimContrast : Byte
  deriving DecidableEq, Repr

/-- One controller command with its parameter bytes: what `cmd(c, ps)` sends (R140). -/
structure Command where
  opcode : Byte
  params : List Byte
  deriving DecidableEq, Repr

/-- `CFG.BUSMODE` (R6, R110): hardware engine or bit-banged. -/
inductive BusMode where
  | hw
  | bitbang
  deriving DecidableEq, Repr

/-- What a signal role is bound to (R6, R242): a hardware-engine role, a discrete pin by its identifier, or nothing. -/
inductive PinTarget where
  | engine
  | pin (id : Nat)
  | unbound
  deriving DecidableEq, Repr

/-- `CFG.PINS`: the five roles of PinBinding (R6, 10_state.md R27). -/
structure PinBinding where
  data : PinTarget
  clock : PinTarget
  cs : PinTarget
  dc : PinTarget
  reset : PinTarget
  deriving DecidableEq, Repr

/-- `CFG.BMP_ROW_MODE` (R6, 20_memory.md R55). -/
inductive RowMode where
  | bytePadded
  | bitContiguous
  deriving DecidableEq, Repr

/-- `CFG.FULLWIN`: column start, column end, row start, row end of "the full display" (R6, R145). -/
structure FullWin where
  cs : Byte
  ce : Byte
  rs : Byte
  re : Byte
  deriving DecidableEq, Repr

/-- The arguments of `CFG.SCROLL_FRAMES`, and the contents of SCROLLCFG when scrolling (R149, 10_state.md R26). -/
structure ScrollCfg where
  diagonal : Bool
  left : Bool
  start : Byte
  stop : Byte
  deriving DecidableEq, Repr

/-- `CFG.SCROLL_FRAMES` as plain data (R149). DESIGN CHOICE (log entry 15, safe): the spec's default function, or any
function on its finite domain written as a table whose unlisted rows give no command. -/
inductive ScrollFrames where
  | standard
  | table (rows : List (ScrollCfg × List Command))
  deriving DecidableEq, Repr

/-- `CFG.DIM_FRAMES` as plain data (R154). DESIGN CHOICE (log entry 15, safe): the spec's default function, or the two lists
any function of the flag has. -/
inductive DimFrames where
  | standard
  | given (whenDim whenNormal : List Command)
  deriving DecidableEq, Repr

/-- The configuration record CFG (R6). `BPP`, `INV_MASK`, `STRIDE` and `FBSIZE` are fixed or derived: Machine/Params.lean. -/
structure Cfg where
  /-- `W`, pixels. -/
  w : Nat
  /-- `H`, pixels. -/
  h : Nat
  busMode : BusMode
  pins : PinBinding
  resetOnBegin : Bool
  /-- `CTRL_ADDR`: carried, read by nothing (U21). DESIGN CHOICE (log entry 18, safe): the spec gives it no type. -/
  ctrlAddr : Nat
  onLevel : Nibble
  offLevel : Nibble
  csActive : Level
  clkActive : Level
  cmd : CmdTable
  init : InitTable
  fullWin : FullWin
  scrollFrames : ScrollFrames
  dimFrames : DimFrames
  bmpRowMode : RowMode
  /-- `BMPSIZE`: at most 65536 bytes. -/
  bmpSize : Fin 65537
  deriving DecidableEq, Repr

/-- Which item of `valid(CFG)` fails (60_exceptions.md R242): the reason `ConfigInvalid` is raised with at construction. -/
inductive ConfigInvalid where
  /-- Item 1: `W` odd or below 2, `H` below 1, or one of them above 32767. -/
  | geometry
  /-- Item 2: mode HW without data and clock on the engine. -/
  | engineBinding
  /-- Item 3: mode BITBANG without four discrete transport pins. -/
  | discreteBinding
  /-- Item 4: two roles on one discrete pin. -/
  | sharedPin
  /-- Item 5: a parameter count that does not fit its table or format. -/
  | parameterCounts
  deriving DecidableEq, Repr

end Sys2Proof
end

