-- ==== Sys2Proof/Machine/Params.lean ====
section
/-! DEFINITION. What the rules compute from CFG: derived sizes (spec 00_scope.md R6), table lookups (41_command_encoder.md
R142, R149, R154, R157), validation (60_exceptions.md R242), and the default tables. -/

namespace Sys2Proof

/-! ### Derived and fixed values (R6) -/

/-- `BPP`: 4, fixed. -/
def Cfg.bpp (_c : Cfg) : Nat := 4

/-- `INV_MASK`: 0xF, "the full-intensity mask", fixed (R6, 92_eei_decisions.md D19). -/
def Cfg.invMask (_c : Cfg) : Nibble := 0xF#4

/-- `STRIDE`: bytes per row, `W/2`. -/
def Cfg.stride (c : Cfg) : Nat := c.w / 2

/-- `FBSIZE`: bytes of the framebuffer, `W*H/2`. -/
def Cfg.fbSize (c : Cfg) : Nat := c.w * c.h / 2

/-! ### The command table (R142) -/

/-- `CFG.CMD[key]`. -/
def CmdTable.get (t : CmdTable) : CmdKey → CmdEntry
  | .cmdLock => t.cmdLock
  | .displayOff => t.displayOff
  | .clockDiv => t.clockDiv
  | .muxRatio => t.muxRatio
  | .displayOffset => t.displayOffset
  | .startLine => t.startLine
  | .remap => t.remap
  | .gpio => t.gpio
  | .funcSel => t.funcSel
  | .enhA => t.enhA
  | .contrast => t.contrast
  | .masterCurrent => t.masterCurrent
  | .graySelect => t.graySelect
  | .phaseLen => t.phaseLen
  | .enhB => t.enhB
  | .prechargeV => t.prechargeV
  | .precharge2 => t.precharge2
  | .vcomh => t.vcomh
  | .normalDisplay => t.normalDisplay
  | .invertDisplay => t.invertDisplay
  | .exitPartial => t.exitPartial
  | .displayOn => t.displayOn
  | .setColumn => t.setColumn
  | .setRow => t.setRow
  | .writeRam => t.writeRam
  | .scrollActivate => t.scrollActivate
  | .scrollDeactivate => t.scrollDeactivate

/-- `CFG.CMD[key].opcode`. -/
def Cfg.opcode (c : Cfg) (k : CmdKey) : Byte := (c.cmd.get k).opcode

/-! ### The begin sequence (R155, R157) -/

/-- `key_1 .. key_21`, in the order of R155. -/
def beginKeys : List BeginKey :=
  [ .cmdLock, .displayOff, .clockDiv, .muxRatio, .displayOffset, .startLine, .remap, .gpio, .funcSel, .enhA,
    .contrast, .masterCurrent, .graySelect, .phaseLen, .enhB, .prechargeV, .precharge2, .vcomh, .normalDisplay,
    .exitPartial, .displayOn ]

/-- The `CFG.CMD` key of a begin step. -/
def BeginKey.cmdKey : BeginKey → CmdKey
  | .cmdLock => .cmdLock
  | .displayOff => .displayOff
  | .clockDiv => .clockDiv
  | .muxRatio => .muxRatio
  | .displayOffset => .displayOffset
  | .startLine => .startLine
  | .remap => .remap
  | .gpio => .gpio
  | .funcSel => .funcSel
  | .enhA => .enhA
  | .contrast => .contrast
  | .masterCurrent => .masterCurrent
  | .graySelect => .graySelect
  | .phaseLen => .phaseLen
  | .enhB => .enhB
  | .prechargeV => .prechargeV
  | .precharge2 => .precharge2
  | .vcomh => .vcomh
  | .normalDisplay => .normalDisplay
  | .exitPartial => .exitPartial
  | .displayOn => .displayOn

/-- `CFG.INIT[key]`. -/
def InitTable.get (t : InitTable) : BeginKey → List Byte
  | .cmdLock => t.cmdLock
  | .displayOff => t.displayOff
  | .clockDiv => t.clockDiv
  | .muxRatio => t.muxRatio
  | .displayOffset => t.displayOffset
  | .startLine => t.startLine
  | .remap => t.remap
  | .gpio => t.gpio
  | .funcSel => t.funcSel
  | .enhA => t.enhA
  | .contrast => t.contrast
  | .masterCurrent => t.masterCurrent
  | .graySelect => t.graySelect
  | .phaseLen => t.phaseLen
  | .enhB => t.enhB
  | .prechargeV => t.prechargeV
  | .precharge2 => t.precharge2
  | .vcomh => t.vcomh
  | .normalDisplay => t.normalDisplay
  | .exitPartial => t.exitPartial
  | .displayOn => t.displayOn

/-! ### The configuration functions (R149, R154) -/

/-- The default of `CFG.SCROLL_FRAMES` (R149, from general knowledge, weakest of the defaults: G2). -/
def scrollStandard (h : Nat) (k : ScrollCfg) : List Command :=
  match k.diagonal, k.left with
  | false, false => [⟨0x26#8, [0x00#8, k.start, 0x00#8, k.stop, 0x00#8, 0xFF#8]⟩]
  | false, true => [⟨0x27#8, [0x00#8, k.start, 0x00#8, k.stop, 0x00#8, 0xFF#8]⟩]
  | true, false =>
    [⟨0xA3#8, [0x00#8, BitVec.ofNat 8 h]⟩, ⟨0x29#8, [0x00#8, k.start, 0x00#8, k.stop, 0x01#8]⟩]
  | true, true =>
    [⟨0xA3#8, [0x00#8, BitVec.ofNat 8 h]⟩, ⟨0x2A#8, [0x00#8, k.start, 0x00#8, k.stop, 0x01#8]⟩]

/-- `CFG.SCROLL_FRAMES(diagonal, left, start, stop)` (R149). -/
def Cfg.scrollCommands (c : Cfg) (k : ScrollCfg) : List Command :=
  match c.scrollFrames with
  | .standard => scrollStandard c.h k
  | .table rows => (rows.lookup k).getD []

/-- `CFG.DIM_FRAMES(flag)` (R154). -/
def Cfg.dimCommands (c : Cfg) (flag : Bool) : List Command :=
  match c.dimFrames, flag with
  | .standard, true => [⟨c.opcode .contrast, [c.init.dimContrast]⟩]
  | .standard, false => [⟨c.opcode .contrast, c.init.contrast⟩]
  | .given whenDim _, true => whenDim
  | .given _ whenNormal, false => whenNormal

/-! ### Validation (R242) -/

/-- Item 1: `W` even, `2 <= W <= 32767`, `1 <= H <= 32767`. -/
def Cfg.geometryOk (c : Cfg) : Bool :=
  decide (c.w % 2 = 0) && decide (2 ≤ c.w) && decide (1 ≤ c.h) && decide (c.w ≤ 32767) && decide (c.h ≤ 32767)

/-- The role is bound to a discrete pin. -/
def PinTarget.isPin : PinTarget → Bool
  | .pin _ => true
  | .engine => false
  | .unbound => false

/-- Item 2: in mode HW the data and clock roles are bound to the engine. -/
def Cfg.engineBindingOk (c : Cfg) : Bool :=
  match c.busMode with
  | .hw => decide (c.pins.data = .engine) && decide (c.pins.clock = .engine)
  | .bitbang => true

/-- Item 3: in mode BITBANG the four transport roles are each bound to a discrete pin. -/
def Cfg.discreteBindingOk (c : Cfg) : Bool :=
  match c.busMode with
  | .hw => true
  | .bitbang => c.pins.data.isPin && c.pins.clock.isPin && c.pins.cs.isPin && c.pins.dc.isPin

/-- The discrete pins that are bound, a role each. -/
def PinBinding.discretePins (p : PinBinding) : List PinTarget :=
  [p.data, p.clock, p.cs, p.dc, p.reset].filter PinTarget.isPin

/-- Item 4: no two roles are bound to the same discrete pin. -/
def Cfg.pinsDistinct (c : Cfg) : Bool := decide c.pins.discretePins.Nodup

/-- Item 5: every `CFG.INIT` entry has its command's count, and the five host-parameter commands have the counts of R142. -/
def Cfg.countsOk (c : Cfg) : Bool :=
  beginKeys.all (fun k => (c.init.get k).length == (c.cmd.get k.cmdKey).n)
    && c.cmd.setColumn.n == 2 && c.cmd.setRow.n == 2 && c.cmd.contrast.n == 1 && c.cmd.remap.n == 2
    && c.cmd.startLine.n == 1

/-- `valid(CFG)`: the conjunction of the five items (R242). -/
def Cfg.valid (c : Cfg) : Bool :=
  c.geometryOk && c.engineBindingOk && c.discreteBindingOk && c.pinsDistinct && c.countsOk

/-- What construction raises: `ConfigInvalid` with the first item that fails, or nothing (R242). -/
def Cfg.configInvalid (c : Cfg) : Option ConfigInvalid :=
  if !c.geometryOk then some .geometry
  else if !c.engineBindingOk then some .engineBinding
  else if !c.discreteBindingOk then some .discreteBinding
  else if !c.pinsDistinct then some .sharedPin
  else if !c.countsOk then some .parameterCounts
  else none

/-! ### The default tables. PRESUMED (log entry 4, unsafe): the spec marks every byte "from general knowledge, not in
source" (93_implementation_defined.md G1 to G6). No rule depends on them. -/

/-- The default `CFG.CMD` (R142). -/
def CmdTable.standard : CmdTable where
  cmdLock := ⟨0xFD#8, 1⟩
  displayOff := ⟨0xAE#8, 0⟩
  clockDiv := ⟨0xB3#8, 1⟩
  muxRatio := ⟨0xCA#8, 1⟩
  displayOffset := ⟨0xA2#8, 1⟩
  startLine := ⟨0xA1#8, 1⟩
  remap := ⟨0xA0#8, 2⟩
  gpio := ⟨0xB5#8, 1⟩
  funcSel := ⟨0xAB#8, 1⟩
  enhA := ⟨0xB4#8, 2⟩
  contrast := ⟨0xC1#8, 1⟩
  masterCurrent := ⟨0xC7#8, 1⟩
  graySelect := ⟨0xB9#8, 0⟩
  phaseLen := ⟨0xB1#8, 1⟩
  enhB := ⟨0xD1#8, 2⟩
  prechargeV := ⟨0xBB#8, 1⟩
  precharge2 := ⟨0xB6#8, 1⟩
  vcomh := ⟨0xBE#8, 1⟩
  normalDisplay := ⟨0xA6#8, 0⟩
  invertDisplay := ⟨0xA7#8, 0⟩
  exitPartial := ⟨0xA9#8, 0⟩
  displayOn := ⟨0xAF#8, 0⟩
  setColumn := ⟨0x15#8, 2⟩
  setRow := ⟨0x75#8, 2⟩
  writeRam := ⟨0x5C#8, 0⟩
  scrollActivate := ⟨0x2F#8, 0⟩
  scrollDeactivate := ⟨0x2E#8, 0⟩

/-- The default `CFG.INIT` (R157), with the default dim contrast (R154). -/
def InitTable.standard : InitTable where
  cmdLock := [0x12#8]
  displayOff := []
  clockDiv := [0x91#8]
  muxRatio := [0x3F#8]
  displayOffset := [0x00#8]
  startLine := [0x00#8]
  remap := [0x14#8, 0x11#8]
  gpio := [0x00#8]
  funcSel := [0x01#8]
  enhA := [0xA0#8, 0xFD#8]
  contrast := [0x9F#8]
  masterCurrent := [0x0F#8]
  graySelect := []
  phaseLen := [0xE2#8]
  enhB := [0x82#8, 0x20#8]
  prechargeV := [0x1F#8]
  precharge2 := [0x08#8]
  vcomh := [0x07#8]
  normalDisplay := []
  exitPartial := []
  displayOn := []
  dimContrast := 0x00#8

/-- The configuration `State.reset` is built with: the spec's worked scenario 256×64 and the spec's defaults; where R6 gives a
parameter no default (BUSMODE, PINS, RESET_ON_BEGIN, CTRL_ADDR, BMPSIZE) DESIGN CHOICE (log entry 3, unsafe). Statements
quantify over every CFG. -/
def Cfg.standard : Cfg where
  w := 256
  h := 64
  busMode := .bitbang
  pins := { data := .pin 0, clock := .pin 1, cs := .pin 2, dc := .pin 3, reset := .pin 4 }
  resetOnBegin := true
  ctrlAddr := 0
  onLevel := 0xF#4
  offLevel := 0x0#4
  csActive := false
  clkActive := true
  cmd := CmdTable.standard
  init := InitTable.standard
  fullWin := ⟨0x1C#8, 0x5B#8, 0x00#8, 0x3F#8⟩
  scrollFrames := .standard
  dimFrames := .standard
  bmpRowMode := .bytePadded
  bmpSize := 65536

end Sys2Proof
end

