-- ==== Sys2Proof/Machine/State.lean ====
section
/-! DEFINITION. The state of one instance of the block (spec 10_state.md R20), the reasons a step can stop, and the machine
right after reset (R32). Plain data only. -/

namespace Sys2Proof.Machine

/-- SCROLL (R26). -/
inductive ScrollState where
  | inactive
  | active
  deriving DecidableEq, Repr

/-- The four transport signals (R27). -/
inductive Signal where
  | data
  | clk
  | cs
  | dc
  deriving DecidableEq, Repr

/-- The last level written to each signal (R27); `rst` is the reset signal, which no rule of the spec drives. -/
structure Pins where
  data : Level
  clk : Level
  cs : Level
  dc : Level
  rst : Level
  deriving DecidableEq, Repr

/-- A byte-level trace event (00_scope.md R11): `Frame(dc, bytes)` or the opaque reset pulse. -/
inductive Event where
  | frame (dc : Level) (bytes : List Byte)
  | rst
  deriving DecidableEq, Repr

/-- A pin-level trace event (00_scope.md R11): a pin write, or one blocking engine transfer. -/
inductive PinEvent where
  | pin (sig : Signal) (level : Level)
  | hw (bytes : List Byte)
  deriving DecidableEq, Repr

/-- The position inside a running operation (R22): `call` is the transport call of the operation's fixed sequence that is
under way (the named phases of DISPLAY and BEGIN are computed from it), then the byte and the bit index. -/
structure SeqPos where
  call : Nat
  byteIdx : Nat
  bitIdx : Nat
  deriving DecidableEq, Repr

/-- A request of the host: the word, and whether the host waits for BUSY to fall before presenting it (R28). -/
structure HostReq where
  word : Request
  waits : Bool
  deriving DecidableEq, Repr

/-- What the transfer engine answers when it is polled for a transfer's return (R115, R121, R255): the listed answers, then
`tail` for ever. -/
structure Engine where
  script : List Bool
  tail : Bool
  deriving DecidableEq, Repr

/-- The state of one instance (R20): the spec's fields, then the host's bitmap space, then the model's own two inputs. -/
structure State where
  /-- CFG (R24). -/
  cfg : Cfg
  /-- FB (R25). -/
  fb : Mem
  /-- SCROLL (R26). -/
  scroll : ScrollState
  /-- SCROLLCFG (R26). -/
  scrollCfg : Option ScrollCfg
  /-- pin.DATA, pin.CLK, pin.CS, pin.DC, pin.RST (R27). -/
  pins : Pins
  /-- BUSY (R28). -/
  busy : Bool
  /-- INIT_DONE (R29). -/
  initDone : Bool
  /-- CFG_OK (R30). -/
  cfgOk : Bool
  /-- REQ (R21). -/
  req : Request
  /-- SEQ (R22); none is idle. -/
  seq : Option SeqPos
  /-- TRACE at byte level (R33), oldest first. -/
  trace : List Event
  /-- TRACE at pin level (R33), oldest first. -/
  pinTrace : List PinEvent
  /-- BMP, the host's source-bitmap space (20_memory.md R55). -/
  bmp : Mem
  /-- The model's own: the requests the host will present, oldest first (log entry 1). -/
  port : List HostReq
  /-- The model's own: the engine's answers to come (log entry 9). -/
  engine : Engine
  deriving DecidableEq, Repr

/-- Why the machine stops with a fault. The spec has no fault (60_exceptions.md R240); both are the model's, and no step of a
constructed machine raises one. -/
inductive Fault where
  /-- Raised by SETPIXEL, VLINE, HLINE and BITMAP when `W` is odd: the indexer of 20_memory.md R51 then leaves FB (R54 needs an
  even `W`, 91_not_in_source.md N27). Safe: such a CFG is not valid and CFG_OK refuses every request (R30). -/
  | oddWidth
  /-- Raised by `step` when BUSY is true and REQ and SEQ name no transfer under way: a state R20 to R28 never reach. Safe. -/
  | noTransfer
  deriving DecidableEq, Repr

/-- Why an instruction has no meaning: "refuse" of 00_scope.md R12. -/
inductive Refusal where
  /-- Raised by `exec` for an instruction the model has not reached yet. Safe. -/
  | notModelled (mnemonic : String)
  /-- Raised by `step` for a request whose operation code is unassigned (30_encoding.md R86). Safe. -/
  | unassignedOp (op : Byte)
  /-- Raised by every operation, and by `step`, for a request presented while BUSY is true (10_state.md R28). Safe. -/
  | requestWhileBusy
  /-- Raised by every operation when CFG_OK is false (10_state.md R30). Safe. -/
  | configInvalid
  /-- Raised by every operation but BEGIN while INIT_DONE is false (10_state.md R29). Safe. -/
  | beforeBegin
  /-- Raised by BEGIN while INIT_DONE is true (10_state.md R29). Safe. -/
  | secondBegin
  /-- Raised by BITMAP when its source does not lie wholly inside BMP (20_memory.md R55). Safe. -/
  | bitmapBeyondSource
  deriving DecidableEq, Repr

/-- What the spec leaves unspecified at reset (R32) or to the host and the engine: the arguments of construction beside CFG. -/
structure Launch where
  fb : Mem
  bmp : Mem
  data : Level
  dc : Level
  rst : Level
  req : Request
  port : List HostReq
  engine : Engine
  deriving DecidableEq, Repr

/-- The machine after reset, which is construction with a CFG (70_reset_and_hazards.md R270, R271; 10_state.md R32). -/
def State.construct (cfg : Cfg) (l : Launch) : State where
  cfg := cfg
  fb := l.fb
  scroll := .inactive
  scrollCfg := none
  pins := { data := l.data, clk := !cfg.clkActive, cs := !cfg.csActive, dc := l.dc, rst := l.rst }
  busy := false
  initDone := false
  cfgOk := cfg.valid
  req := l.req
  seq := none
  trace := []
  pinTrace := []
  bmp := l.bmp
  port := l.port
  engine := l.engine

/-- The values `State.reset` takes for what the spec leaves open. DESIGN CHOICE (log entries 1, 5, 6, 7, 8, 9; unsafe):
memories all 0x00, DATA, DC and RST low, REQ zero, no request yet, an engine that always returns. -/
def Launch.standard : Launch where
  fb := []
  bmp := []
  data := false
  dc := false
  rst := false
  req := 0
  port := []
  engine := { script := [], tail := true }

/-- The machine right after reset, in the spec's worked scenario. -/
def State.reset : State := State.construct Cfg.standard Launch.standard

end Sys2Proof.Machine
end

