-- ==== Sys2Proof/Machine/Ops.lean ====
section
/-! DEFINITION. The named operations over the state: pin writes and traces (spec 00_scope.md R10, R11), the transport call
(40_transport.md R111 to R115), and the running of an operation's transport calls with the engine's returns (R121,
60_exceptions.md R255). The block takes no exception (R240, R246): there is no trap entry or return to write here. -/

namespace Sys2Proof.Machine

/-! ### Pins and traces -/

/-- The levels after one pin-level event; an engine transfer drives no pin of the block (R27). -/
def Pins.apply (p : Pins) : PinEvent → Pins
  | .pin .data l => { p with data := l }
  | .pin .clk l => { p with clk := l }
  | .pin .cs l => { p with cs := l }
  | .pin .dc l => { p with dc := l }
  | .hw _ => p

/-- `pin.S <- l` and `emit(Hw(bs))`, in order: the levels change and the pin-level trace grows (R10, R11). -/
def State.drive (s : State) (evs : List PinEvent) : State :=
  { s with pins := evs.foldl Pins.apply s.pins, pinTrace := s.pinTrace ++ evs }

/-- `emit(ev)` at byte level (R11). -/
def State.emit (s : State) (ev : Event) : State := { s with trace := s.trace ++ [ev] }

/-! ### One transport call -/

/-- A transport call: the level of DC and the bytes (R111 to R113). -/
structure Call where
  dc : Level
  bytes : List Byte
  deriving DecidableEq, Repr

/-- `sendcmd(c)` (R111). -/
def sendcmd (c : Byte) : Call := { dc := false, bytes := [c] }

/-- `senddata(v)` (R112). -/
def senddata (v : Byte) : Call := { dc := true, bytes := [v] }

/-- `sendblk(bs)` (R113). -/
def sendblk (bs : List Byte) : Call := { dc := true, bytes := bs }

/-- The frame a transport call puts in the byte-level trace (R11). -/
def Call.frame (c : Call) : Event := .frame c.dc c.bytes

/-- The bits of a byte in wire order: bit 7 first, bit 0 last (R114, 20_memory.md R56). -/
def wireBits (b : Byte) : List Level :=
  [b.getLsbD 7, b.getLsbD 6, b.getLsbD 5, b.getLsbD 4, b.getLsbD 3, b.getLsbD 2, b.getLsbD 1, b.getLsbD 0]

/-- One bit: data set, clock asserted, clock de-asserted (R114, R118). -/
def bitEvents (cfg : Cfg) (l : Level) : List PinEvent :=
  [.pin .data l, .pin .clk cfg.clkActive, .pin .clk (!cfg.clkActive)]

/-- `shift(bs)` in mode BITBANG (R114). -/
def shiftBitbang (cfg : Cfg) (bs : List Byte) : List PinEvent :=
  bs.flatMap (fun b => (wireBits b).flatMap (bitEvents cfg))

/-- `shift(bs)`: the mode decides here and nowhere else (R110, R114, R115). -/
def shift (cfg : Cfg) (bs : List Byte) : List PinEvent :=
  match cfg.busMode with
  | .bitbang => shiftBitbang cfg bs
  | .hw => [.hw bs]

/-- The pin events of a call up to the shift: DC, then CS asserted, then the bytes (R111 to R113, R116). -/
def Call.opening (cfg : Cfg) (c : Call) : List PinEvent :=
  [.pin .dc c.dc, .pin .cs cfg.csActive] ++ shift cfg c.bytes

/-- The pin events that end a call: CS de-asserted (R117). -/
def closing (cfg : Cfg) : List PinEvent := [.pin .cs (!cfg.csActive)]

/-- All pin events of a call (R111 to R113). -/
def Call.events (cfg : Cfg) (c : Call) : List PinEvent := c.opening cfg ++ closing cfg

/-- Transport call number `k` of the operation starts: SEQ is at its first bit and its opening is driven. -/
def State.startCall (s : State) (k : Nat) (c : Call) : State :=
  { s.drive (c.opening s.cfg) with seq := some { call := k, byteIdx := 0, bitIdx := 7 } }

/-- A transport call ends: CS is de-asserted and the frame is complete (R111 to R113). -/
def State.endCall (s : State) (c : Call) : State := (s.drive (closing s.cfg)).emit c.frame

/-! ### The transfer engine -/

/-- The engine's next answer, and the engine after it (R255). -/
def Engine.poll (e : Engine) : Bool × Engine :=
  match e.script with
  | [] => (e.tail, e)
  | answer :: rest => (answer, { e with script := rest })

/-- Whether the bytes of the call under way have been clocked out: in mode BITBANG the block has done it itself (R121); in
mode HW the engine is polled. -/
def State.pollTransfer (s : State) : Bool × State :=
  match s.cfg.busMode with
  | .bitbang => (true, s)
  | .hw => (s.engine.poll.1, { s with engine := s.engine.poll.2 })

/-! ### Running an operation -/

/-- What an admitted operation does: an opaque reset pulse if `rst` (R158), its transport calls in order, and last its effect
on the state (R92). -/
structure Plan where
  rst : Bool
  calls : List Call
  finish : State → State

/-- Transport calls in order, numbered from `k`, each waiting for its transfer: the state, and whether all completed. When a
transfer does not return the state is left inside its call, CS asserted (R121, R255). -/
def runCalls : Nat → List Call → State → Bool × State
  | _, [], s => (true, s)
  | k, c :: rest, s =>
    match (s.startCall k c).pollTransfer with
    | (true, s') => runCalls (k + 1) rest (s'.endCall c)
    | (false, s') => (false, s')

/-- Completion: BUSY false, SEQ idle, and the operation's effect (R22, R28). -/
def State.complete (s : State) (p : Plan) : State := p.finish { s with busy := false, seq := none }

/-- The rest of an operation from transport call `k` on: completed, or left waiting for the engine with BUSY true. -/
def continueWith (p : Plan) (k : Nat) (calls : List Call) (s : State) : State :=
  match runCalls k calls s with
  | (true, s') => s'.complete p
  | (false, s') => s'

/-- Acceptance: BUSY rises, and the reset pulse of BEGIN is emitted before its first frame (R28, R158). -/
def State.accept (s : State) (p : Plan) : State :=
  { s with busy := true, trace := s.trace ++ (if p.rst then [Event.rst] else []) }

/-- An admitted operation, from acceptance on. -/
def perform (p : Plan) (s : State) : State := continueWith p 0 p.calls (s.accept p)

end Sys2Proof.Machine
end

