-- ==== Sys2Proof/Machine/Flags.lean ====
section
/-! DEFINITION. The status bits (spec 10_state.md R23): there are no arithmetic condition codes, and no operation sets a flag
as a side effect of arithmetic. Here: admission, which reads BUSY, CFG_OK and INIT_DONE (R28 to R30), and the writes of
INIT_DONE and SCROLL. -/

namespace Sys2Proof.Machine

/-- Which value of INIT_DONE an operation needs (R29). -/
inductive Gate where
  /-- Every operation but BEGIN. -/
  | afterBegin
  /-- BEGIN. -/
  | beforeBegin
  deriving DecidableEq, Repr

/-- Admission: why the request is refused, or nothing (R28 to R30, 30_encoding.md R94). -/
def admission (g : Gate) (s : State) : Option Refusal :=
  if s.busy then some .requestWhileBusy
  else if !s.cfgOk then some .configInvalid
  else
    match g, s.initDone with
    | .afterBegin, true => none
    | .afterBegin, false => some .beforeBegin
    | .beforeBegin, false => none
    | .beforeBegin, true => some .secondBegin

/-- `INIT_DONE <- true` (R29). -/
def State.setInitDone (s : State) : State := { s with initDone := true }

/-- `SCROLLCFG <- k` and `SCROLL <- ACTIVE` (44_scroll_mode.md R221). -/
def State.startScroll (s : State) (k : ScrollCfg) : State := { s with scrollCfg := some k, scroll := .active }

/-- `SCROLLCFG <- none` and `SCROLL <- INACTIVE` (44_scroll_mode.md R225). -/
def State.stopScroll (s : State) : State := { s with scrollCfg := none, scroll := .inactive }

/-- An operation: refused, or performed (60_exceptions.md R240: every admitted operation is total). -/
def runOp (g : Gate) (p : Plan) (s : State) : Host.Outcome State Fault Refusal :=
  match admission g s with
  | some r => .refused r
  | none => .next (perform p s)

/-- A pixel operation: as `runOp`, and stopped by name for an odd `W`, for which the indexer has no meaning (20_memory.md
R54, log entry 13). -/
def runPixelOp (p : Plan) (s : State) : Host.Outcome State Fault Refusal :=
  match admission .afterBegin s with
  | some r => .refused r
  | none => if s.cfg.w % 2 = 0 then .next (perform p s) else .fault .oddWidth

end Sys2Proof.Machine
end

