-- ==== Sys2Proof/Machine/Transport.lean ====
section
/-! DEFINITION. Bus Transport as host operations: SENDCMD and SENDDATA (spec 40_transport.md R111, R112). -/

namespace Sys2Proof.Machine

/-- An operation that only sends: no reset pulse, no effect on the state but the pins and the traces. -/
def sendPlan (calls : List Call) : Plan := { rst := false, calls := calls, finish := fun s => s }

/-- SENDCMD: one command byte (R111). -/
def planSendcmd (byte : Byte) : Plan := sendPlan [sendcmd byte]

/-- SENDDATA: one data byte (R112). -/
def planSenddata (byte : Byte) : Plan := sendPlan [senddata byte]

/-- SENDCMD `byte` (R111). -/
def execSendcmd (byte : Byte) (s : State) : Host.Outcome State Fault Refusal :=
  runOp .afterBegin (planSendcmd byte) s

/-- SENDDATA `byte` (R112). -/
def execSenddata (byte : Byte) (s : State) : Host.Outcome State Fault Refusal :=
  runOp .afterBegin (planSenddata byte) s

end Sys2Proof.Machine
end

