-- ==== Sys2Proof/Machine/Encoder.lean ====
section
/-! DEFINITION. The Command Encoder (spec 41_command_encoder.md): PWRON, PWROFF, SETWIN, SETCONTRAST, SETREMAP, SELGRAY,
CFGSCROLL, SCROLLON, SCROLLOFF, SETSTARTLINE, BEGIN, and the procedures `cmd`, `setwin`, `cfgscroll`, `enc_invert`,
`enc_dim`. Nothing is validated (R141) and nothing is remembered (R160). -/

namespace Sys2Proof.Machine

/-! ### The procedures -/

/-- `cmd(c, ps)`: the opcode, then each parameter as a data byte of its own call (R140, 30_encoding.md R87). -/
def cmd (c : Byte) (ps : List Byte) : List Call := sendcmd c :: ps.map senddata

/-- `cmd` on each command of a list, in order (R149, R154). -/
def cmds (cs : List Command) : List Call := cs.flatMap (fun c => cmd c.opcode c.params)

/-- `setwin(cs, ce, rs, re)`: column before row (R145). -/
def setwin (cfg : Cfg) (win : FullWin) : List Call :=
  cmd (cfg.opcode .setColumn) [win.cs, win.ce] ++ cmd (cfg.opcode .setRow) [win.rs, win.re]

/-- `cfgscroll(diagonal, left, start, stop)` (R149). -/
def cfgscroll (cfg : Cfg) (k : ScrollCfg) : List Call := cmds (cfg.scrollCommands k)

/-- `enc_invert(flag)` (R152). -/
def encInvert (cfg : Cfg) (flag : Bool) : List Call :=
  if flag then cmd (cfg.opcode .invertDisplay) [] else cmd (cfg.opcode .normalDisplay) []

/-- `enc_dim(flag)` (R154). -/
def encDim (cfg : Cfg) (flag : Bool) : List Call := cmds (cfg.dimCommands flag)

/-- The 21 commands of BEGIN in order (R155, R156). -/
def beginCalls (cfg : Cfg) : List Call :=
  beginKeys.flatMap (fun k => cmd (cfg.opcode k.cmdKey) (cfg.init.get k))

/-! ### The operations -/

/-- PWRON (R143). -/
def planPwron (cfg : Cfg) : Plan := sendPlan (cmd (cfg.opcode .displayOn) [])
/-- PWROFF (R144). -/
def planPwroff (cfg : Cfg) : Plan := sendPlan (cmd (cfg.opcode .displayOff) [])
/-- SETWIN (R145). -/
def planSetwin (cfg : Cfg) (cs ce rs re : Byte) : Plan := sendPlan (setwin cfg ⟨cs, ce, rs, re⟩)
/-- SETCONTRAST (R146). -/
def planSetcontrast (cfg : Cfg) (byte : Byte) : Plan := sendPlan (cmd (cfg.opcode .contrast) [byte])
/-- SETREMAP (R147). -/
def planSetremap (cfg : Cfg) (p0 p1 : Byte) : Plan := sendPlan (cmd (cfg.opcode .remap) [p0, p1])
/-- SELGRAY (R148). -/
def planSelgray (cfg : Cfg) : Plan := sendPlan (cmd (cfg.opcode .graySelect) (cfg.init.get .graySelect))
/-- CFGSCROLL (R149): SCROLL and SCROLLCFG are not written (44_scroll_mode.md R230). -/
def planCfgscroll (cfg : Cfg) (start stop : Byte) (left diagonal : Bool) : Plan :=
  sendPlan (cfgscroll cfg ⟨diagonal, left, start, stop⟩)
/-- SCROLLON (R150). -/
def planScrollon (cfg : Cfg) : Plan := sendPlan (cmd (cfg.opcode .scrollActivate) [])
/-- SCROLLOFF (R151). -/
def planScrolloff (cfg : Cfg) : Plan := sendPlan (cmd (cfg.opcode .scrollDeactivate) [])
/-- SETSTARTLINE (R153). -/
def planSetstartline (cfg : Cfg) (byte : Byte) : Plan := sendPlan (cmd (cfg.opcode .startLine) [byte])
/-- BEGIN (R155, R158): FB is left as it was (R159). -/
def planBegin (cfg : Cfg) : Plan :=
  { rst := cfg.resetOnBegin, calls := beginCalls cfg, finish := State.setInitDone }

/-- PWRON (R143). -/
def execPwron (s : State) : Host.Outcome State Fault Refusal := runOp .afterBegin (planPwron s.cfg) s
/-- PWROFF (R144). -/
def execPwroff (s : State) : Host.Outcome State Fault Refusal := runOp .afterBegin (planPwroff s.cfg) s
/-- SETWIN `cs, ce, rs, re` (R145). -/
def execSetwin (cs ce rs re : Byte) (s : State) : Host.Outcome State Fault Refusal :=
  runOp .afterBegin (planSetwin s.cfg cs ce rs re) s
/-- SETCONTRAST `byte` (R146). -/
def execSetcontrast (byte : Byte) (s : State) : Host.Outcome State Fault Refusal :=
  runOp .afterBegin (planSetcontrast s.cfg byte) s
/-- SETREMAP `p0, p1` (R147). -/
def execSetremap (p0 p1 : Byte) (s : State) : Host.Outcome State Fault Refusal :=
  runOp .afterBegin (planSetremap s.cfg p0 p1) s
/-- SELGRAY (R148). -/
def execSelgray (s : State) : Host.Outcome State Fault Refusal := runOp .afterBegin (planSelgray s.cfg) s
/-- CFGSCROLL `start, stop, left, diagonal` (R149). -/
def execCfgscroll (start stop : Byte) (left diagonal : Bool) (s : State) : Host.Outcome State Fault Refusal :=
  runOp .afterBegin (planCfgscroll s.cfg start stop left diagonal) s
/-- SCROLLON (R150). -/
def execScrollon (s : State) : Host.Outcome State Fault Refusal := runOp .afterBegin (planScrollon s.cfg) s
/-- SCROLLOFF (R151). -/
def execScrolloff (s : State) : Host.Outcome State Fault Refusal := runOp .afterBegin (planScrolloff s.cfg) s
/-- SETSTARTLINE `byte` (R153). -/
def execSetstartline (byte : Byte) (s : State) : Host.Outcome State Fault Refusal :=
  runOp .afterBegin (planSetstartline s.cfg byte) s
/-- BEGIN (R155): admitted only while INIT_DONE is false (10_state.md R29). -/
def execBegin (s : State) : Host.Outcome State Fault Refusal := runOp .beforeBegin (planBegin s.cfg) s

end Sys2Proof.Machine
end

