-- ==== Sys2Proof/Machine/Flush.lean ====
section
/-! DEFINITION. Display Flush (spec 43_display_flush.md): DISPLAY and the phases of its sequencer. -/

namespace Sys2Proof.Machine

/-- The transport calls of DISPLAY: the full window, write-RAM, the whole framebuffer as one block (R210). -/
def flushCalls (cfg : Cfg) (fb : Mem) : List Call :=
  setwin cfg cfg.fullWin ++ cmd (cfg.opcode .writeRam) [] ++ [sendblk (fb.bytes cfg.fbSize)]

/-- The clear of `display(clearAfter)`: 0x00 in every byte, after the last call (R210, R212). -/
def State.clearFb (s : State) : State := { s with fb := Mem.fill s.cfg.fbSize 0x00#8 }

/-- DISPLAY (R210). -/
def planDisplay (cfg : Cfg) (fb : Mem) (flag : Bool) : Plan :=
  { rst := false
    calls := flushCalls cfg fb
    finish := fun s => if flag then s.clearFb else s }

/-- DISPLAY `flag` (R210). -/
def execDisplay (flag : Bool) (s : State) : Host.Outcome State Fault Refusal :=
  runOp .afterBegin (planDisplay s.cfg s.fb flag) s

/-- The phases of the flush sequencer (R211). -/
inductive FlushPhase where
  | winCol
  | winRow
  | wram
  | stream
  | clear
  | done
  deriving DecidableEq, Repr

/-- The phase a DISPLAY is in during transport call `k`, and the phase after its eight calls (R211). -/
def flushPhase (flag : Bool) (k : Nat) : FlushPhase :=
  if k < 3 then .winCol
  else if k < 6 then .winRow
  else if k < 7 then .wram
  else if k < 8 then .stream
  else if k = 8 ∧ flag then .clear
  else .done

end Sys2Proof.Machine
end

