-- ==== Sys2Proof/Machine/Operands.lean ====
section
/-! DEFINITION. The operand forms: pixel coordinates and the address indexer (spec 20_memory.md R51 to R54), colours
(42_framebuffer_primitives.md R180), clipped runs (R182, R183), and source bits (20_memory.md R55). -/

namespace Sys2Proof.Machine

/-! ### The nibble packer (R52, R53) -/

/-- `getnib(b, x)`: the high nibble for even `x`, the low one for odd `x`. -/
def getnib (b : Byte) (x : Nat) : Nibble :=
  if x % 2 = 0 then b.extractLsb' 4 4 else b.extractLsb' 0 4

/-- `setnib(b, x, v)`: that nibble replaced, the paired one kept. -/
def setnib (b : Byte) (x : Nat) (v : Nibble) : Byte :=
  if x % 2 = 0 then v ++ b.extractLsb' 0 4 else b.extractLsb' 4 4 ++ v

/-- `{v, v}` (R187). -/
def bothNibbles (v : Nibble) : Byte := v ++ v

/-! ### The address indexer (R51) -/

/-- `idx(x, y) = y * (W div 2) + (x div 2)`. -/
def idx (cfg : Cfg) (x y : Nat) : Nat := y * (cfg.w / 2) + x / 2

/-- `0 <= x < W` and `0 <= y < H`. -/
def inBounds (cfg : Cfg) (x y : Int) : Bool :=
  decide (0 ≤ x) && decide (x < cfg.w) && decide (0 ≤ y) && decide (y < cfg.h)

/-- `pixel(FB, x, y)`, for stating claims (R53). -/
def pixel (cfg : Cfg) (fb : Mem) (x y : Nat) : Nibble := getnib (fb.read (idx cfg x y)) x

/-! ### Colours and the one-pixel update (R180) -/

/-- `apply(old, color)`. -/
def applyColor (cfg : Cfg) (old : Nibble) : Color → Nibble
  | .off => cfg.offLevel
  | .on => cfg.onLevel
  | .inv => old ^^^ cfg.invMask
  | .raw n => n

/-- The update of an in-bounds pixel: read its byte, replace its nibble, write the byte back. -/
def updatePixel (cfg : Cfg) (color : Color) (fb : Mem) (x y : Nat) : Mem :=
  fb.write (idx cfg x y) (setnib (fb.read (idx cfg x y)) x (applyColor cfg (getnib (fb.read (idx cfg x y)) x) color))

/-- `setpix(x, y, color)`: a silent no-op out of bounds. -/
def setpix (cfg : Cfg) (color : Color) (fb : Mem) (x y : Int) : Mem :=
  if inBounds cfg x y then updatePixel cfg color fb x.toNat y.toNat else fb

/-- `setpix` on each listed pixel, in order. -/
def setpixels (cfg : Cfg) (color : Color) (pixels : List (Int × Int)) (fb : Mem) : Mem :=
  pixels.foldl (fun m p => setpix cfg color m p.1 p.2) fb

/-! ### Clipped runs (R182, R183) -/

/-- The integers from `a` to `b - 1`. -/
def intsFrom (a b : Int) : List Int := (List.range (b - a).toNat).map (fun (k : Nat) => a + (k : Int))

/-- The pixels VLINE writes (R182). -/
def vlinePixels (cfg : Cfg) (x y len : Int) : List (Int × Int) :=
  if len ≤ 0 ∨ x < 0 ∨ (cfg.w : Int) ≤ x then []
  else (intsFrom (max y 0) (min (y + len) cfg.h)).map (fun yi => (x, yi))

/-- The pixels HLINE writes (R183). -/
def hlinePixels (cfg : Cfg) (x y len : Int) : List (Int × Int) :=
  if len ≤ 0 ∨ y < 0 ∨ (cfg.h : Int) ≤ y then []
  else (intsFrom (max x 0) (min (x + len) cfg.w)).map (fun xi => (xi, y))

/-! ### The source bitmap (R55) -/

/-- `rowbits`. -/
def rowBits (mode : RowMode) (w : Nat) : Nat :=
  match mode with
  | .bytePadded => 8 * ((w + 7) / 8)
  | .bitContiguous => w

/-- `n = j * rowbits + i`. -/
def srcBitIndex (mode : RowMode) (w i j : Nat) : Nat := j * rowBits mode w + i

/-- `srcbit(i, j)` of the bitmap of width `w` at byte address `src`. -/
def srcBit (cfg : Cfg) (bmp : Mem) (src w i j : Nat) : Bool :=
  (bmp.read (src + srcBitIndex cfg.bmpRowMode w i j / 8)).getLsbD (7 - srcBitIndex cfg.bmpRowMode w i j % 8)

/-- The highest byte address a `w` by `h` bitmap at `src` reads. -/
def lastSrcByte (cfg : Cfg) (src w h : Nat) : Nat := src + srcBitIndex cfg.bmpRowMode w (w - 1) (h - 1) / 8

/-- The bitmap does not lie wholly inside BMP (R55). -/
def sourceBeyond (cfg : Cfg) (src : Nat) (w h : Int) : Bool :=
  decide (0 < w) && decide (0 < h) && decide (cfg.bmpSize.val ≤ lastSrcByte cfg src w.toNat h.toNat)

/-- The pixels BITMAP passes to `setpix`, row by row: those under set source bits (R185). -/
def bitmapPixels (cfg : Cfg) (bmp : Mem) (x y : Int) (src : Nat) (w h : Int) : List (Int × Int) :=
  (List.range h.toNat).flatMap (fun (j : Nat) =>
    ((List.range w.toNat).filter (fun (i : Nat) => srcBit cfg bmp src w.toNat i j)).map
      (fun (i : Nat) => (x + (i : Int), y + (j : Int))))

end Sys2Proof.Machine
end

