-- ==== Sys2Proof/Machine/Primitives.lean ====
section
/-! DEFINITION. The Framebuffer and Pixel/Primitive Layer (spec 42_framebuffer_primitives.md): SETPIXEL, VLINE, HLINE, BITMAP,
FILL, CLEAR. All six change FB only and transmit nothing (R189, 20_memory.md R65). -/

namespace Sys2Proof.Machine

/-- `FB <- f(FB)`. -/
def State.updateFb (s : State) (f : Mem → Mem) : State := { s with fb := f s.fb }

/-- An operation that only changes FB. -/
def drawPlan (f : Mem → Mem) : Plan := { rst := false, calls := [], finish := fun s => s.updateFb f }

/-- SETPIXEL (R181). -/
def planSetpixel (cfg : Cfg) (x y : Int) (color : Color) : Plan :=
  drawPlan (fun fb => setpix cfg color fb x y)
/-- VLINE (R182). -/
def planVline (cfg : Cfg) (x y len : Int) (color : Color) : Plan :=
  drawPlan (setpixels cfg color (vlinePixels cfg x y len))
/-- HLINE (R183). -/
def planHline (cfg : Cfg) (x y len : Int) (color : Color) : Plan :=
  drawPlan (setpixels cfg color (hlinePixels cfg x y len))
/-- BITMAP (R185): an OR-style blit, pixels under clear bits untouched (R186). -/
def planBitmap (cfg : Cfg) (bmp : Mem) (x y : Int) (src : Arg) (w h : Int) (color : Color) : Plan :=
  drawPlan (setpixels cfg color (bitmapPixels cfg bmp x y src.toNat w h))
/-- FILL (R187). -/
def planFill (cfg : Cfg) (level : Nibble) : Plan := drawPlan (fun _ => Mem.fill cfg.fbSize (bothNibbles level))
/-- CLEAR (R188). -/
def planClear (cfg : Cfg) : Plan := drawPlan (fun _ => Mem.fill cfg.fbSize 0x00#8)

/-- SETPIXEL `x, y, color` (R181). -/
def execSetpixel (x y : Int) (color : Color) (s : State) : Host.Outcome State Fault Refusal :=
  runPixelOp (planSetpixel s.cfg x y color) s
/-- VLINE `x, y, len, color` (R182). -/
def execVline (x y len : Int) (color : Color) (s : State) : Host.Outcome State Fault Refusal :=
  runPixelOp (planVline s.cfg x y len color) s
/-- HLINE `x, y, len, color` (R183). -/
def execHline (x y len : Int) (color : Color) (s : State) : Host.Outcome State Fault Refusal :=
  runPixelOp (planHline s.cfg x y len color) s
/-- BITMAP `x, y, src, w, h, color` (R185): an admitted request whose source leaves BMP has no meaning (20_memory.md R55). -/
def execBitmap (x y : Int) (src : Arg) (w h : Int) (color : Color) (s : State) : Host.Outcome State Fault Refusal :=
  match admission .afterBegin s with
  | some r => .refused r
  | none =>
    if sourceBeyond s.cfg src.toNat w h then .refused .bitmapBeyondSource
    else runPixelOp (planBitmap s.cfg s.bmp x y src w h color) s
/-- FILL `level` (R187). -/
def execFill (level : Nibble) (s : State) : Host.Outcome State Fault Refusal :=
  runOp .afterBegin (planFill s.cfg level) s
/-- CLEAR (R188). -/
def execClear (s : State) : Host.Outcome State Fault Refusal := runOp .afterBegin (planClear s.cfg) s

end Sys2Proof.Machine
end

