-- ==== Sys2Proof/Machine/Scroll.lean ====
section
/-! DEFINITION. Scroll and Display-Mode Control (spec 44_scroll_mode.md): the four STARTSCROLL operations, STOPSCROLL,
INVERTDISPLAY, DIM. None reads or writes FB (R229); only the first five write SCROLL and SCROLLCFG (R220, R230). -/

namespace Sys2Proof.Machine

/-- A start of scrolling: configure, activate, then the state transition (R220). -/
def scrollPlan (cfg : Cfg) (k : ScrollCfg) : Plan :=
  { rst := false
    calls := cfgscroll cfg k ++ cmd (cfg.opcode .scrollActivate) []
    finish := fun s => s.startScroll k }

/-- STARTSCROLLRIGHT (R221). -/
def planStartscrollright (cfg : Cfg) (start stop : Byte) : Plan := scrollPlan cfg ⟨false, false, start, stop⟩
/-- STARTSCROLLLEFT (R222). -/
def planStartscrollleft (cfg : Cfg) (start stop : Byte) : Plan := scrollPlan cfg ⟨false, true, start, stop⟩
/-- STARTSCROLLDIAGRIGHT (R223). -/
def planStartscrolldiagright (cfg : Cfg) (start stop : Byte) : Plan := scrollPlan cfg ⟨true, false, start, stop⟩
/-- STARTSCROLLDIAGLEFT (R224). -/
def planStartscrolldiagleft (cfg : Cfg) (start stop : Byte) : Plan := scrollPlan cfg ⟨true, true, start, stop⟩
/-- STOPSCROLL (R225). -/
def planStopscroll (cfg : Cfg) : Plan :=
  { rst := false, calls := cmd (cfg.opcode .scrollDeactivate) [], finish := State.stopScroll }
/-- INVERTDISPLAY (R227). -/
def planInvertdisplay (cfg : Cfg) (flag : Bool) : Plan := sendPlan (encInvert cfg flag)
/-- DIM (R228). -/
def planDim (cfg : Cfg) (flag : Bool) : Plan := sendPlan (encDim cfg flag)

/-- STARTSCROLLRIGHT `start, stop` (R221). -/
def execStartscrollright (start stop : Byte) (s : State) : Host.Outcome State Fault Refusal :=
  runOp .afterBegin (planStartscrollright s.cfg start stop) s
/-- STARTSCROLLLEFT `start, stop` (R222). -/
def execStartscrollleft (start stop : Byte) (s : State) : Host.Outcome State Fault Refusal :=
  runOp .afterBegin (planStartscrollleft s.cfg start stop) s
/-- STARTSCROLLDIAGRIGHT `start, stop` (R223). -/
def execStartscrolldiagright (start stop : Byte) (s : State) : Host.Outcome State Fault Refusal :=
  runOp .afterBegin (planStartscrolldiagright s.cfg start stop) s
/-- STARTSCROLLDIAGLEFT `start, stop` (R224). -/
def execStartscrolldiagleft (start stop : Byte) (s : State) : Host.Outcome State Fault Refusal :=
  runOp .afterBegin (planStartscrolldiagleft s.cfg start stop) s
/-- STOPSCROLL (R225). -/
def execStopscroll (s : State) : Host.Outcome State Fault Refusal := runOp .afterBegin (planStopscroll s.cfg) s
/-- INVERTDISPLAY `flag` (R227). -/
def execInvertdisplay (flag : Bool) (s : State) : Host.Outcome State Fault Refusal :=
  runOp .afterBegin (planInvertdisplay s.cfg flag) s
/-- DIM `flag` (R228). -/
def execDim (flag : Bool) (s : State) : Host.Outcome State Fault Refusal :=
  runOp .afterBegin (planDim s.cfg flag) s

end Sys2Proof.Machine
end

