-- ==== Sys2Proof/Machine/Dispatch.lean ====
section
/-! DEFINITION. One arm per operation of OPSET-1 (spec 30_encoding.md R84). -/

namespace Sys2Proof.Machine

/-- The meaning of each host operation. -/
def exec (i : Instr) (s : State) : Host.Outcome State Fault Refusal :=
  match i with
  | .sendcmd byte => Sys2Proof.Machine.execSendcmd byte s
  | .senddata byte => Sys2Proof.Machine.execSenddata byte s
  | .pwron => Sys2Proof.Machine.execPwron s
  | .pwroff => Sys2Proof.Machine.execPwroff s
  | .setwin cs ce rs re => Sys2Proof.Machine.execSetwin cs ce rs re s
  | .setcontrast byte => Sys2Proof.Machine.execSetcontrast byte s
  | .setremap p0 p1 => Sys2Proof.Machine.execSetremap p0 p1 s
  | .selgray => Sys2Proof.Machine.execSelgray s
  | .cfgscroll start stop left diagonal => Sys2Proof.Machine.execCfgscroll start stop left diagonal s
  | .scrollon => Sys2Proof.Machine.execScrollon s
  | .scrolloff => Sys2Proof.Machine.execScrolloff s
  | .setstartline byte => Sys2Proof.Machine.execSetstartline byte s
  | .beginInit => Sys2Proof.Machine.execBegin s
  | .setpixel x y color => Sys2Proof.Machine.execSetpixel x y color s
  | .vline x y len color => Sys2Proof.Machine.execVline x y len color s
  | .hline x y len color => Sys2Proof.Machine.execHline x y len color s
  | .bitmap x y src w h color => Sys2Proof.Machine.execBitmap x y src w h color s
  | .fill level => Sys2Proof.Machine.execFill level s
  | .clear => Sys2Proof.Machine.execClear s
  | .display flag => Sys2Proof.Machine.execDisplay flag s
  | .startscrollright start stop => Sys2Proof.Machine.execStartscrollright start stop s
  | .startscrollleft start stop => Sys2Proof.Machine.execStartscrollleft start stop s
  | .startscrolldiagright start stop => Sys2Proof.Machine.execStartscrolldiagright start stop s
  | .startscrolldiagleft start stop => Sys2Proof.Machine.execStartscrolldiagleft start stop s
  | .stopscroll => Sys2Proof.Machine.execStopscroll s
  | .invertdisplay flag => Sys2Proof.Machine.execInvertdisplay flag s
  | .dim flag => Sys2Proof.Machine.execDim flag s

end Sys2Proof.Machine
end

