-- ==== Sys2Proof/WellFormed.lean ====
section
/-! DEFINITION. Which instructions a request word can carry: every signed operand fits its 16-bit two's-complement field
(spec 30_encoding.md R82). All other operands have exactly their field's width by type. -/

namespace Sys2Proof

/-- `v` is a value of a 16-bit two's-complement field: −32768 to 32767 (R82). -/
def fitsSigned16 (v : Int) : Bool :=
  decide (-32768 ≤ v) && decide (v ≤ 32767)

/-- The instruction has an encoding: its signed operands fit. -/
def Instr.wf : Instr → Bool
  | .setpixel x y _ => fitsSigned16 x && fitsSigned16 y
  | .vline x y len _ => fitsSigned16 x && fitsSigned16 y && fitsSigned16 len
  | .hline x y len _ => fitsSigned16 x && fitsSigned16 y && fitsSigned16 len
  | .bitmap x y _ w h _ => fitsSigned16 x && fitsSigned16 y && fitsSigned16 w && fitsSigned16 h
  | .sendcmd _ | .senddata _ | .pwron | .pwroff | .setwin .. | .setcontrast _ | .setremap .. | .selgray
  | .cfgscroll .. | .scrollon | .scrolloff | .setstartline _ | .beginInit | .fill _ | .clear | .display _
  | .startscrollright .. | .startscrollleft .. | .startscrolldiagright .. | .startscrolldiagleft ..
  | .stopscroll | .invertdisplay _ | .dim _ => true

end Sys2Proof
end

