-- ==== Sys2Proof/Decode.lean ====
section
/-! DEFINITION. The request decoder (spec 30_encoding.md R80 to R86, R93, R94), total on every 104-bit word, and the
encoder of the canonical words (R85), written from the same table. -/

namespace Sys2Proof

/-- Why a request word has no instruction: its operation code is unassigned (R86). -/
inductive DecodeError where
  | unassignedOp (op : Byte)
  deriving DecidableEq, Repr

/-! ### The fields of a request word (R80) -/

/-- `op`, bits 103:96. -/
def opField (w : Request) : Byte := w.extractLsb' 96 8

/-- `a0`, bits 95:80. -/
def arg0 (w : Request) : Arg := w.extractLsb' 80 16
/-- `a1`, bits 79:64. -/
def arg1 (w : Request) : Arg := w.extractLsb' 64 16
/-- `a2`, bits 63:48. -/
def arg2 (w : Request) : Arg := w.extractLsb' 48 16
/-- `a3`, bits 47:32. -/
def arg3 (w : Request) : Arg := w.extractLsb' 32 16
/-- `a4`, bits 31:16. -/
def arg4 (w : Request) : Arg := w.extractLsb' 16 16
/-- `a5`, bits 15:0. -/
def arg5 (w : Request) : Arg := w.extractLsb' 0 16

/-! ### The operands inside an argument (R81 to R83) -/

/-- A byte operand: bits 7:0. -/
def byteOf (a : Arg) : Byte := a.extractLsb' 0 8

/-- A nibble operand: bits 3:0. -/
def nibbleOf (a : Arg) : Nibble := a.extractLsb' 0 4

/-- A flag: bit 0, 1 for true. -/
def flagOf (a : Arg) : Bool := a.getLsbD 0

/-- Bit 1, the flag `diagonal` of format S. -/
def flag1Of (a : Arg) : Bool := a.getLsbD 1

/-- A signed operand: `sext_16` of the whole argument (R82). -/
def signedOf (a : Arg) : Int := a.toInt

/-- A colour operand: kind in bits 5:4, raw level in bits 3:0, read only for the kind RAW (R83, R85). -/
def colorOf (a : Arg) : Color :=
  if a.extractLsb' 4 2 = 0#2 then .off
  else if a.extractLsb' 4 2 = 1#2 then .on
  else if a.extractLsb' 4 2 = 2#2 then .inv
  else .raw (nibbleOf a)

/-! ### The operation map (R84) -/

/-- One row of the operation map: the code and what its format reads from the word. -/
abbrev OpRow := Byte × (Request → Instr)

/-- Transport and command encoder (R84, codes 0x0_ and 0x1_). -/
def encoderRows : List OpRow :=
  [ (0x01#8, fun w => .sendcmd (byteOf (arg0 w))),
    (0x02#8, fun w => .senddata (byteOf (arg0 w))),
    (0x10#8, fun _ => .pwron),
    (0x11#8, fun _ => .pwroff),
    (0x12#8, fun w => .setwin (byteOf (arg0 w)) (byteOf (arg1 w)) (byteOf (arg2 w)) (byteOf (arg3 w))),
    (0x13#8, fun w => .setcontrast (byteOf (arg0 w))),
    (0x14#8, fun w => .setremap (byteOf (arg0 w)) (byteOf (arg1 w))),
    (0x15#8, fun _ => .selgray),
    (0x16#8, fun w => .cfgscroll (byteOf (arg0 w)) (byteOf (arg1 w)) (flagOf (arg2 w)) (flag1Of (arg2 w))),
    (0x17#8, fun _ => .scrollon),
    (0x18#8, fun _ => .scrolloff),
    (0x19#8, fun w => .setstartline (byteOf (arg0 w))),
    (0x1F#8, fun _ => .beginInit) ]

/-- Primitives and flush (R84, codes 0x2_ and 0x3_). -/
def drawingRows : List OpRow :=
  [ (0x20#8, fun w => .setpixel (signedOf (arg0 w)) (signedOf (arg1 w)) (colorOf (arg2 w))),
    (0x21#8, fun w => .vline (signedOf (arg0 w)) (signedOf (arg1 w)) (signedOf (arg2 w)) (colorOf (arg3 w))),
    (0x22#8, fun w => .hline (signedOf (arg0 w)) (signedOf (arg1 w)) (signedOf (arg2 w)) (colorOf (arg3 w))),
    (0x23#8, fun w => .bitmap (signedOf (arg0 w)) (signedOf (arg1 w)) (arg2 w) (signedOf (arg3 w))
      (signedOf (arg4 w)) (colorOf (arg5 w))),
    (0x24#8, fun w => .fill (nibbleOf (arg0 w))),
    (0x25#8, fun _ => .clear),
    (0x30#8, fun w => .display (flagOf (arg0 w))) ]

/-- Scroll and display mode (R84, codes 0x4_). -/
def scrollRows : List OpRow :=
  [ (0x40#8, fun w => .startscrollright (byteOf (arg0 w)) (byteOf (arg1 w))),
    (0x41#8, fun w => .startscrollleft (byteOf (arg0 w)) (byteOf (arg1 w))),
    (0x42#8, fun w => .startscrolldiagright (byteOf (arg0 w)) (byteOf (arg1 w))),
    (0x43#8, fun w => .startscrolldiagleft (byteOf (arg0 w)) (byteOf (arg1 w))),
    (0x44#8, fun _ => .stopscroll),
    (0x45#8, fun w => .invertdisplay (flagOf (arg0 w))),
    (0x46#8, fun w => .dim (flagOf (arg0 w))) ]

/-- The operation map: 27 rows with distinct codes (R84). -/
def opRows : List OpRow := encoderRows ++ drawingRows ++ scrollRows

/-- The decoder: it reads `op`, looks up the row, done (R93); an unassigned code is refused by name (R86). -/
def decode (w : Request) : Except DecodeError Instr :=
  match opRows.find? (fun r => r.1 == opField w) with
  | some r => .ok (r.2 w)
  | none => .error (.unassignedOp (opField w))

/-! ### The encoder: canonical words, every unused bit zero (R85) -/

/-- `op a0 a1 a2 a3 a4 a5`, `op` most significant (R80). -/
def requestOf (op : Byte) (a0 a1 a2 a3 a4 a5 : Arg) : Request :=
  op ++ a0 ++ a1 ++ a2 ++ a3 ++ a4 ++ a5

/-- A byte operand in an argument. -/
def ofByte (b : Byte) : Arg := 0#8 ++ b
/-- A nibble operand in an argument. -/
def ofNibble (n : Nibble) : Arg := 0#12 ++ n
/-- A flag in bit 0 of an argument. -/
def ofFlag (f : Bool) : Arg := 0#15 ++ BitVec.ofBool f
/-- Two flags, `lo` in bit 0 and `hi` in bit 1. -/
def ofFlags (lo hi : Bool) : Arg := 0#14 ++ BitVec.ofBool hi ++ BitVec.ofBool lo
/-- A signed operand in an argument: two's complement (R82). -/
def ofSigned (v : Int) : Arg := BitVec.ofInt 16 v
/-- A colour in an argument (R83): 0x00, 0x10, 0x20, 0x30 + n (R91). -/
def ofColor : Color → Arg
  | .off => 0x00#16
  | .on => 0x10#16
  | .inv => 0x20#16
  | .raw n => 0x003#12 ++ n

/-- The operation code of an instruction (R84). -/
def Instr.opcode : Instr → Byte
  | .sendcmd _ => 0x01#8
  | .senddata _ => 0x02#8
  | .pwron => 0x10#8
  | .pwroff => 0x11#8
  | .setwin .. => 0x12#8
  | .setcontrast _ => 0x13#8
  | .setremap .. => 0x14#8
  | .selgray => 0x15#8
  | .cfgscroll .. => 0x16#8
  | .scrollon => 0x17#8
  | .scrolloff => 0x18#8
  | .setstartline _ => 0x19#8
  | .beginInit => 0x1F#8
  | .setpixel .. => 0x20#8
  | .vline .. => 0x21#8
  | .hline .. => 0x22#8
  | .bitmap .. => 0x23#8
  | .fill _ => 0x24#8
  | .clear => 0x25#8
  | .display _ => 0x30#8
  | .startscrollright .. => 0x40#8
  | .startscrollleft .. => 0x41#8
  | .startscrolldiagright .. => 0x42#8
  | .startscrolldiagleft .. => 0x43#8
  | .stopscroll => 0x44#8
  | .invertdisplay _ => 0x45#8
  | .dim _ => 0x46#8

/-- The canonical request word of an instruction (R80, R81, R85). -/
def encode (i : Instr) : Request :=
  match i with
  | .sendcmd b | .senddata b | .setcontrast b | .setstartline b => requestOf i.opcode (ofByte b) 0 0 0 0 0
  | .pwron | .pwroff | .selgray | .scrollon | .scrolloff | .beginInit | .clear | .stopscroll =>
    requestOf i.opcode 0 0 0 0 0 0
  | .setwin cs ce rs re => requestOf i.opcode (ofByte cs) (ofByte ce) (ofByte rs) (ofByte re) 0 0
  | .setremap p0 p1 => requestOf i.opcode (ofByte p0) (ofByte p1) 0 0 0 0
  | .cfgscroll start stop left diagonal =>
    requestOf i.opcode (ofByte start) (ofByte stop) (ofFlags left diagonal) 0 0 0
  | .setpixel x y c => requestOf i.opcode (ofSigned x) (ofSigned y) (ofColor c) 0 0 0
  | .vline x y len c | .hline x y len c =>
    requestOf i.opcode (ofSigned x) (ofSigned y) (ofSigned len) (ofColor c) 0 0
  | .bitmap x y src w h c =>
    requestOf i.opcode (ofSigned x) (ofSigned y) src (ofSigned w) (ofSigned h) (ofColor c)
  | .fill level => requestOf i.opcode (ofNibble level) 0 0 0 0 0
  | .display f | .invertdisplay f | .dim f => requestOf i.opcode (ofFlag f) 0 0 0 0 0
  | .startscrollright start stop | .startscrollleft start stop | .startscrolldiagright start stop
  | .startscrolldiagleft start stop => requestOf i.opcode (ofByte start) (ofByte stop) 0 0 0 0

/-- The instruction the decoder reads from a table word: the table numbers a request as one 104-bit number, bit 0 its least
significant bit, so the number is the request word; bits at or above `nbits` are 0, and no request has a bit above 103. -/
def decodeTableWord (nbits w : Nat) : Option Instr :=
  if w % 2 ^ nbits < 2 ^ 104 then
    match decode (BitVec.ofNat 104 (w % 2 ^ nbits)) with
    | .ok i => some i
    | .error _ => none
  else none

end Sys2Proof
end

