-- ==== Sys2Proof/Machine/Resume.lean ====
section
/-! DEFINITION. Request acceptance (spec 10_state.md R28, 30_encoding.md R94) and the engine's own step, "transfer done", in
which a waiting operation goes on (40_transport.md R121, 60_exceptions.md R255). -/

namespace Sys2Proof.Machine

/-- What each operation does once admitted, read from the state it runs in: what a waiting operation is resumed with. CFG and
FB are as they were at its acceptance, because only the last act of an operation changes FB. -/
def planOf (i : Instr) (s : State) : Plan :=
  match i with
  | .sendcmd byte => planSendcmd byte
  | .senddata byte => planSenddata byte
  | .pwron => planPwron s.cfg
  | .pwroff => planPwroff s.cfg
  | .setwin cs ce rs re => planSetwin s.cfg cs ce rs re
  | .setcontrast byte => planSetcontrast s.cfg byte
  | .setremap p0 p1 => planSetremap s.cfg p0 p1
  | .selgray => planSelgray s.cfg
  | .cfgscroll start stop left diagonal => planCfgscroll s.cfg start stop left diagonal
  | .scrollon => planScrollon s.cfg
  | .scrolloff => planScrolloff s.cfg
  | .setstartline byte => planSetstartline s.cfg byte
  | .beginInit => planBegin s.cfg
  | .setpixel x y color => planSetpixel s.cfg x y color
  | .vline x y len color => planVline s.cfg x y len color
  | .hline x y len color => planHline s.cfg x y len color
  | .bitmap x y src w h color => planBitmap s.cfg s.bmp x y src w h color
  | .fill level => planFill s.cfg level
  | .clear => planClear s.cfg
  | .display flag => planDisplay s.cfg s.fb flag
  | .startscrollright start stop => planStartscrollright s.cfg start stop
  | .startscrollleft start stop => planStartscrollleft s.cfg start stop
  | .startscrolldiagright start stop => planStartscrolldiagright s.cfg start stop
  | .startscrolldiagleft start stop => planStartscrolldiagleft s.cfg start stop
  | .stopscroll => planStopscroll s.cfg
  | .invertdisplay flag => planInvertdisplay s.cfg flag
  | .dim flag => planDim s.cfg flag

/-- The operation under way and its position: read from REQ and SEQ (R21, R22). -/
def State.running (s : State) : Option (Plan × Nat × Call) :=
  match decode s.req, s.seq with
  | .ok i, some pos =>
    match (planOf i s).calls[pos.call]? with
    | some c => some (planOf i s, pos.call, c)
    | none => none
  | _, _ => none

/-- The engine's step while BUSY is true: no return leaves the block waiting; a return ends the call under way and the
operation goes on (R255). A BUSY state with no call under way is not one of the spec's (log entry 21). -/
def engineStep (s : State) : Host.Outcome State Fault Refusal :=
  match s.running with
  | none => .fault .noTransfer
  | some (p, k, c) =>
    match s.pollTransfer with
    | (false, s') => .next s'
    | (true, s') => .next (continueWith p (k + 1) (p.calls.drop (k + 1)) (s'.endCall c))

/-- The request at the head of the port is one the host presents without waiting for BUSY to fall (R28, R280). -/
def State.impatient (s : State) : Bool :=
  match s.port with
  | r :: _ => !r.waits
  | [] => false

/-- Request acceptance: the word leaves the port and is latched in REQ (R21, R28). -/
def State.latch (s : State) (r : HostReq) (rest : List HostReq) : State :=
  { s with port := rest, req := r.word }

/-- The host brings the block to where the request `word` is the next one accepted and is admitted (log entry 17): the word at
the head of the port, the block idle, and INIT_DONE as BEGIN, or another operation, needs it (R28, R29). -/
def State.present (s : State) (word : Request) : State :=
  { s with
    port := { word := word, waits := true } :: s.port
    busy := false
    seq := none
    initDone := decide (opField word ≠ 0x1F#8) }

end Sys2Proof.Machine
end

