-- ==== Sys2Proof/Machine/Step.lean ====
section
/-! DEFINITION. One step of the block (spec 10_state.md R28): while BUSY, the engine's step; else the next request of the host
is accepted, decoded and executed; with no request the block waits (70_reset_and_hazards.md R271). -/

namespace Sys2Proof.Machine

/-- One step. -/
def step (s : State) : Host.Outcome State Fault Refusal :=
  if s.busy then
    if s.impatient then .refused .requestWhileBusy else engineStep s
  else
    match s.port with
    | [] => .next s
    | r :: rest =>
      match decode r.word with
      | .ok i => exec i (s.latch r rest)
      | .error (.unassignedOp op) => .refused (.unassignedOp op)

/-- `s` with the table word's request presented, so that the very next step runs it (log entry 17). -/
def State.withFetchWord (s : State) (nbits w : Nat) : State :=
  s.present (BitVec.ofNat 104 (w % 2 ^ nbits))

end Sys2Proof.Machine
end

