-- ==== Sys2Proof/Safety.lean ====
section
/-! DEFINITION. The terms claims are stated in: when an operation completes and what it leaves unchanged, the invariants that
hold between steps (spec 10_state.md R34, R35), what the controller receives from the pins (40_transport.md R119), and the
whole-byte form of a horizontal run (42_framebuffer_primitives.md R184). -/

namespace Sys2Proof.Machine

/-! ### When an operation is admitted and completes -/

/-- An operation other than BEGIN is admitted: BUSY false, CFG_OK true, INIT_DONE true (R28 to R30). -/
abbrev State.Ready (s : State) : Prop := s.busy = false ∧ s.cfgOk = true ∧ s.initDone = true

/-- BEGIN is admitted: BUSY false, CFG_OK true, INIT_DONE false (R28 to R30). -/
abbrev State.ReadyForBegin (s : State) : Prop := s.busy = false ∧ s.cfgOk = true ∧ s.initDone = false

/-- Which value of INIT_DONE an instruction needs (R29). -/
def gateOf : Instr → Gate
  | .beginInit => .beforeBegin
  | _ => .afterBegin

/-- The operations that write SCROLL and SCROLLCFG (44_scroll_mode.md R220, R230). -/
def writesScroll : Instr → Bool
  | .startscrollright .. | .startscrollleft .. | .startscrolldiagright .. | .startscrolldiagleft .. | .stopscroll => true
  | .sendcmd _ | .senddata _ | .pwron | .pwroff | .setwin .. | .setcontrast _ | .setremap .. | .selgray | .cfgscroll ..
  | .scrollon | .scrolloff | .setstartline _ | .beginInit | .setpixel .. | .vline .. | .hline .. | .bitmap .. | .fill _
  | .clear | .display _ | .invertdisplay _ | .dim _ => false

/-- The operations that write FB: the six primitives, and DISPLAY with its flag set (20_memory.md R65, R66). -/
def writesFb : Instr → Bool
  | .setpixel .. | .vline .. | .hline .. | .bitmap .. | .fill _ | .clear => true
  | .display flag => flag
  | .sendcmd _ | .senddata _ | .pwron | .pwroff | .setwin .. | .setcontrast _ | .setremap .. | .selgray | .cfgscroll ..
  | .scrollon | .scrolloff | .setstartline _ | .beginInit | .startscrollright .. | .startscrollleft ..
  | .startscrolldiagright .. | .startscrolldiagleft .. | .stopscroll | .invertdisplay _ | .dim _ => false

/-- The operation a step of `s` works on: the one latched in REQ while BUSY, else the request at the head of the port. -/
def State.operation (s : State) : Option Instr :=
  match (if s.busy then some s.req else s.port.head?.map HostReq.word) with
  | some word => (decode word).toOption
  | none => none

/-- Every transfer returns at once: always in mode BITBANG, and in mode HW when the engine never withholds its answer (R121,
R289: the premise termination claims are stated under). -/
abbrev State.EngineReturns (s : State) : Prop :=
  s.cfg.busMode = .bitbang ∨ (s.engine.script.all id = true ∧ s.engine.tail = true)

/-! ### What an operation leaves unchanged -/

/-- `t` is `s` after an operation that only sent: `frames` are appended to TRACE; the four transport signals, the pin-level
trace and the engine's answers may have moved, BUSY is false and SEQ idle; all else is as it was. -/
structure State.SentOnly (s t : State) (frames : List Event) : Prop where
  trace : t.trace = s.trace ++ frames
  cfg : t.cfg = s.cfg
  fb : t.fb = s.fb
  scroll : t.scroll = s.scroll
  scrollCfg : t.scrollCfg = s.scrollCfg
  rst : t.pins.rst = s.pins.rst
  busy : t.busy = false
  initDone : t.initDone = s.initDone
  cfgOk : t.cfgOk = s.cfgOk
  req : t.req = s.req
  seq : t.seq = none
  bmp : t.bmp = s.bmp
  port : t.port = s.port

/-- `t` is `s` after an operation that only drew: FB may have changed, BUSY is false and SEQ idle; all else is as it was. -/
abbrev State.FbOnly (s t : State) : Prop := t = { s with fb := t.fb, busy := false, seq := none }

/-- The shorthands of R11: a command byte, a data byte, a data block, as frames. -/
def evC (b : Byte) : Event := .frame false [b]
/-- `D(b)` (R11). -/
def evD (b : Byte) : Event := .frame true [b]
/-- `DB(bs)` (R11). -/
def evDB (bs : List Byte) : Event := .frame true bs

/-- The frames of `cmd(c, ps)` (R140). -/
def cmdFrames (c : Byte) (ps : List Byte) : List Event := evC c :: ps.map evD

/-- The frames of a list of commands (R149, R154). -/
def commandFrames (cs : List Command) : List Event := cs.flatMap (fun c => cmdFrames c.opcode c.params)

/-- The state after `calls` have all been sent, with BUSY false and SEQ idle: what the pins, both traces and the engine's
answers then are. -/
def State.afterCalls (s : State) (calls : List Call) : State :=
  { s with
    pins := (calls.flatMap (Call.events s.cfg)).foldl Pins.apply s.pins
    pinTrace := s.pinTrace ++ calls.flatMap (Call.events s.cfg)
    trace := s.trace ++ calls.map Call.frame
    engine :=
      match s.cfg.busMode with
      | .bitbang => s.engine
      | .hw => { s.engine with script := s.engine.script.drop calls.length }
    busy := false
    seq := none }

/-! ### The invariants between steps (R34, R35) -/

/-- The memories are canonical and hold only cells that exist. -/
structure State.MemInv (s : State) : Prop where
  fbWf : s.fb.wf = true
  fbWithin : s.fb.within s.cfg.fbSize = true
  bmpWf : s.bmp.wf = true
  bmpWithin : s.bmp.within s.cfg.bmpSize.val = true

/-- `SCROLLCFG = none` if and only if `SCROLL = INACTIVE` (R26, R34). -/
abbrev State.ScrollInv (s : State) : Prop := s.scrollCfg = none ↔ s.scroll = .inactive

/-- Whenever BUSY is false: CS inactive, in mode BITBANG CLK inactive, SEQ idle (R34). Whenever a step leaves BUSY true, the
operation waits for the engine inside one of its transport calls, CS asserted (R121, R255). -/
structure State.BusInv (s : State) : Prop where
  idleCs : s.busy = false → s.pins.cs = !s.cfg.csActive
  idleClk : s.busy = false → s.cfg.busMode = .bitbang → s.pins.clk = !s.cfg.clkActive
  idleSeq : s.busy = false → s.seq = none
  waitHw : s.busy = true → s.cfg.busMode = .hw
  waitCs : s.busy = true → s.pins.cs = s.cfg.csActive
  waitCall : s.busy = true → s.running.isSome = true

/-- What holds at reset and after every step: CFG_OK is the result of validation (R30), and R34, R35. -/
structure State.Inv (s : State) : Prop where
  cfgOk : s.cfgOk = s.cfg.valid
  mem : s.MemInv
  scroll : s.ScrollInv
  bus : s.BusInv

/-- What construction is given: memories in canonical form with only existing cells. -/
structure Launch.Ok (l : Launch) (cfg : Cfg) : Prop where
  fbWf : l.fb.wf = true
  fbWithin : l.fb.within cfg.fbSize = true
  bmpWf : l.bmp.wf = true
  bmpWithin : l.bmp.within cfg.bmpSize.val = true

/-! ### The bits of a request that are operands (30_encoding.md R81, R83, R85) -/

/-- The operand bits of a colour argument: the kind, and the raw level for the kind RAW. -/
def colorMask (a : Arg) : Arg := if a.extractLsb' 4 2 = 3#2 then 0x3F#16 else 0x30#16

/-- The bits of a request its operation reads: `op`, and what the operation's format names (R81). -/
def usedMask (w : Request) : Request :=
  match (opField w).toNat with
  | 0x01 | 0x02 | 0x13 | 0x19 => requestOf 0xFF#8 0xFF#16 0 0 0 0 0
  | 0x30 | 0x45 | 0x46 => requestOf 0xFF#8 0x1#16 0 0 0 0 0
  | 0x24 => requestOf 0xFF#8 0xF#16 0 0 0 0 0
  | 0x14 | 0x40 | 0x41 | 0x42 | 0x43 => requestOf 0xFF#8 0xFF#16 0xFF#16 0 0 0 0
  | 0x12 => requestOf 0xFF#8 0xFF#16 0xFF#16 0xFF#16 0xFF#16 0 0
  | 0x16 => requestOf 0xFF#8 0xFF#16 0xFF#16 0x3#16 0 0 0
  | 0x20 => requestOf 0xFF#8 0xFFFF#16 0xFFFF#16 (colorMask (arg2 w)) 0 0 0
  | 0x21 | 0x22 => requestOf 0xFF#8 0xFFFF#16 0xFFFF#16 0xFFFF#16 (colorMask (arg3 w)) 0 0
  | 0x23 => requestOf 0xFF#8 0xFFFF#16 0xFFFF#16 0xFFFF#16 0xFFFF#16 0xFFFF#16 (colorMask (arg5 w))
  | _ => requestOf 0xFF#8 0 0 0 0 0 0

/-! ### The order of pin writes (R118) -/

/-- Every clock assertion is directly preceded by a DATA write and directly followed by the clock's de-assertion. -/
def DataBeforeClock (cfg : Cfg) (evs : List PinEvent) : Prop :=
  ∀ pre post, evs = pre ++ .pin .clk cfg.clkActive :: post →
    (∃ pre' l, pre = pre' ++ [.pin .data l]) ∧ ∃ post', post = .pin .clk (!cfg.clkActive) :: post'

/-- The event writes DATA or CLK. -/
def PinEvent.isDataOrClk : PinEvent → Bool
  | .pin .data _ => true
  | .pin .clk _ => true
  | .pin .cs _ => false
  | .pin .dc _ => false
  | .hw _ => false

/-! ### From pins to bytes (R119) -/

/-- What a receiver of the pin-level trace knows: the lines' levels, the bits of the byte being received, the bytes of the open
chip-select assertion, and the frames received so far. -/
structure Receiver where
  selected : Bool
  dc : Level
  data : Level
  bits : List Level
  bytes : List Byte
  frames : List Event
  deriving DecidableEq, Repr

/-- Before any event. -/
def Receiver.start : Receiver :=
  { selected := false, dc := false, data := false, bits := [], bytes := [], frames := [] }

/-- The byte of eight bits, the first most significant. -/
def byteOfBits (bits : List Level) : Byte :=
  bits.foldl (fun (acc : Byte) l => (acc <<< 1) ||| (if l then 1#8 else 0#8)) 0#8

/-- One sampled bit: eight make a byte. -/
def Receiver.sample (r : Receiver) : Receiver :=
  if r.bits.length = 7 then { r with bits := [], bytes := r.bytes ++ [byteOfBits (r.bits ++ [r.data])] }
  else { r with bits := r.bits ++ [r.data] }

/-- One event of the pin-level trace: an assertion of CS opens a frame, its de-assertion closes it, an asserted clock samples
DATA, an engine transfer delivers its bytes (R119). -/
def Receiver.receive (cfg : Cfg) (r : Receiver) : PinEvent → Receiver
  | .pin .dc l => { r with dc := l }
  | .pin .data l => { r with data := l }
  | .pin .clk l => if r.selected && (l == cfg.clkActive) then r.sample else r
  | .pin .cs l =>
    if l == cfg.csActive then { r with selected := true, bits := [], bytes := [] }
    else if r.selected then
      { r with selected := false, bits := [], bytes := [], frames := r.frames ++ [.frame r.dc r.bytes] }
    else r
  | .hw bs => if r.selected then { r with bytes := r.bytes ++ bs } else r

/-- What has been received after a pin-level trace. -/
def received (cfg : Cfg) (evs : List PinEvent) : Receiver := evs.foldl (Receiver.receive cfg) Receiver.start

/-- The event is a frame (and not the opaque reset pulse, which has no pin-level event). -/
def Event.isFrame : Event → Bool
  | .frame _ _ => true
  | .rst => false

/-- The byte-level trace is what a receiver reads from the pin-level trace (R119); between steps nothing is half received but
the bytes of the call that waits for the engine. -/
structure State.TraceInv (s : State) : Prop where
  frames : (received s.cfg s.pinTrace).frames = s.trace.filter Event.isFrame
  noPartial : (received s.cfg s.pinTrace).bits = []
  idle : s.busy = false → (received s.cfg s.pinTrace).selected = false
  waiting : s.busy = true → ∀ p k c, s.running = some (p, k, c) →
    (received s.cfg s.pinTrace).selected = true ∧ (received s.cfg s.pinTrace).dc = c.dc
      ∧ (received s.cfg s.pinTrace).bytes = c.bytes

/-! ### The whole-byte form of a horizontal run (R184) -/

/-- One byte operation on byte `j`: `{v, v}` for a writing colour, `xor 0xFF` for INV (R184). -/
def updateByte (cfg : Cfg) (color : Color) (fb : Mem) (j : Nat) : Mem :=
  match color with
  | .inv => fb.write j (fb.read j ^^^ 0xFF#8)
  | .off => fb.write j (bothNibbles cfg.offLevel)
  | .on => fb.write j (bothNibbles cfg.onLevel)
  | .raw n => fb.write j (bothNibbles n)

/-- The run of the pixels `x0 .. x1 - 1` of row `y` by whole bytes where both nibbles of a byte are covered, and by pixels at an
odd start and an odd end (R184). -/
def runByBytes (cfg : Cfg) (color : Color) (x0 x1 y : Nat) (fb : Mem) : Mem :=
  let first := if x0 % 2 = 1 ∧ x0 < x1 then updatePixel cfg color fb x0 y else fb
  let k0 := (x0 + 1) / 2
  let k1 := x1 / 2
  let middle := (List.range (k1 - k0)).foldl (fun m k => updateByte cfg color m (y * cfg.stride + (k0 + k))) first
  if x1 % 2 = 1 ∧ x0 < x1 then updatePixel cfg color middle (x1 - 1) y else middle

end Sys2Proof.Machine
end

