-- ==== Sys2Proof/Certificates/Slice0/Obligations.lean ====
section
/-! DEFINITION. The statements for the provers. Each docstring names the rule of spec/ it formalises. Statements about a next
state of a sending operation take the premise `EngineReturns` (spec 60_exceptions.md R255: termination claims are stated under
the premise that the engine's step is taken); it always holds in mode BITBANG. -/

open Sys2Proof Sys2Proof.Machine

/-! ### Encoding -/

/-- R80 to R85: every well-formed instruction is read back from its canonical word, with every operand. -/
def Obligations.DecodeOfEncodeIsTheInstruction : Prop :=
  ∀ i : Instr, i.wf = true → decode (encode i) = .ok i

/-- R94: the decoder is total, the codes are distinct, and a word has exactly the instruction of its code's row, well formed,
or is unassigned. -/
def Obligations.EveryWordHasOneRowOrIsUnassigned : Prop :=
  (opRows.map Prod.fst).Nodup ∧ opRows.length = 27 ∧
  ∀ w : Request,
    (∃ i, decode w = .ok i ∧ i.opcode = opField w ∧ i.wf = true ∧ opField w ∈ opRows.map Prod.fst)
    ∨ (decode w = .error (.unassignedOp (opField w)) ∧ opField w ∉ opRows.map Prod.fst)

/-- R85: bits the format does not name never change the instruction, and the canonical word has them zero. -/
def Obligations.UnusedRequestBitsAreIgnored : Prop :=
  (∀ w w' : Request, w &&& usedMask w = w' &&& usedMask w' → decode w = decode w') ∧
  (∀ i : Instr, encode i &&& usedMask (encode i) = encode i)

/-- R81, R84 (and R82, R83 for the operands): each operation code is its row's operation, and its operands are the bits its
format names, counted in the whole 104-bit word. -/
def Obligations.DecodingReadsTheFormats : Prop :=
  ∀ w : Request,
    let byte (lo : Nat) : Byte := w.extractLsb' lo 8
    let signed (lo : Nat) : Int := (w.extractLsb' lo 16).toInt
    let color (lo : Nat) : Color :=
      match w.getLsbD (lo + 5), w.getLsbD (lo + 4) with
      | false, false => .off
      | false, true => .on
      | true, false => .inv
      | true, true => .raw (w.extractLsb' lo 4)
    match (w.extractLsb' 96 8).toNat with
    | 0x01 => decode w = .ok (.sendcmd (byte 80))
    | 0x02 => decode w = .ok (.senddata (byte 80))
    | 0x10 => decode w = .ok .pwron
    | 0x11 => decode w = .ok .pwroff
    | 0x12 => decode w = .ok (.setwin (byte 80) (byte 64) (byte 48) (byte 32))
    | 0x13 => decode w = .ok (.setcontrast (byte 80))
    | 0x14 => decode w = .ok (.setremap (byte 80) (byte 64))
    | 0x15 => decode w = .ok .selgray
    | 0x16 => decode w = .ok (.cfgscroll (byte 80) (byte 64) (w.getLsbD 48) (w.getLsbD 49))
    | 0x17 => decode w = .ok .scrollon
    | 0x18 => decode w = .ok .scrolloff
    | 0x19 => decode w = .ok (.setstartline (byte 80))
    | 0x1F => decode w = .ok .beginInit
    | 0x20 => decode w = .ok (.setpixel (signed 80) (signed 64) (color 48))
    | 0x21 => decode w = .ok (.vline (signed 80) (signed 64) (signed 48) (color 32))
    | 0x22 => decode w = .ok (.hline (signed 80) (signed 64) (signed 48) (color 32))
    | 0x23 => decode w = .ok (.bitmap (signed 80) (signed 64) (w.extractLsb' 48 16) (signed 32) (signed 16) (color 0))
    | 0x24 => decode w = .ok (.fill (w.extractLsb' 80 4))
    | 0x25 => decode w = .ok .clear
    | 0x30 => decode w = .ok (.display (w.getLsbD 80))
    | 0x40 => decode w = .ok (.startscrollright (byte 80) (byte 64))
    | 0x41 => decode w = .ok (.startscrollleft (byte 80) (byte 64))
    | 0x42 => decode w = .ok (.startscrolldiagright (byte 80) (byte 64))
    | 0x43 => decode w = .ok (.startscrolldiagleft (byte 80) (byte 64))
    | 0x44 => decode w = .ok .stopscroll
    | 0x45 => decode w = .ok (.invertdisplay (w.getLsbD 80))
    | 0x46 => decode w = .ok (.dim (w.getLsbD 80))
    | _ => decode w = .error (.unassignedOp (w.extractLsb' 96 8))

/-- 30_encoding.md R91 and 95_test_vectors.md T-DEC, T-HL, T-VL, T-ENC, T-TR, T-DISP, T-SCR and P3: eleven request words the
spec writes out decode to what they stand for. In order: T-DEC, T-DEC, T-DEC, R91 and T-HL, T-VL, P3 step 3, T-ENC, T-ENC,
T-TR, T-DISP, T-SCR; the first of them decodes to nothing. -/
def Obligations.SpecWordsDecode : Prop :=
  decode 0x00000000000000000000000000 = .error (.unassignedOp 0x00#8) ∧
  decode 0x2000030002FFFA123456789ABC = .ok (.setpixel 3 2 (.raw 10)) ∧
  decode 0x2000030002002F000000000000 = .ok (.setpixel 3 2 .inv) ∧
  decode 0x22FFFD00050005001000000000 = .ok (.hline (-3) 5 5 .on) ∧
  decode 0x21000AFFFE0004003700000000 = .ok (.vline 10 (-2) 4 (.raw 7)) ∧
  decode 0x23FFFE00010000000C00040020 = .ok (.bitmap (-2) 1 0 12 4 .inv) ∧
  decode 0x12001C005B0000003F00000000 = .ok (.setwin 0x1C 0x5B 0x00 0x3F) ∧
  decode 0x16000000070002000000000000 = .ok (.cfgscroll 0 7 false true) ∧
  decode 0x0112AF00000000000000000000 = .ok (.sendcmd 0xAF) ∧
  decode 0x30FFFE00000000000000000000 = .ok (.display false) ∧
  decode 0x40000000070000000000000000 = .ok (.startscrollright 0 7)

/-! ### A step -/

/-- R21, R28: a step of an idle block latches the request at the head of the port in REQ and is the meaning of the decoded
instruction; nothing else is added around it. With no request the idle block waits (R271). The port is the model's own (log
entry 1). -/
def Obligations.StepRunsTheDecodedInstruction : Prop :=
  (∀ (s : State) (r : HostReq) (rest : List HostReq) (i : Instr),
    s.busy = false → s.port = r :: rest → decode r.word = .ok i →
      step s = exec i { s with port := rest, req := r.word }) ∧
  (∀ s : State, s.busy = false → s.port = [] → step s = .next s)

/-- R86: 229 codes, 0x00 among them, are unassigned, and a request with one is refused. That the refusal is called
unassignedOp also where CFG_OK is false is the model's order of the refusals (log entry 12), and that the request comes from
the head of a list of requests is the model's port (log entry 1). -/
def Obligations.UnassignedCodeIsRefused : Prop :=
  ((List.range 256).filter (fun n => decide (BitVec.ofNat 8 n ∉ opRows.map Prod.fst))).length = 229 ∧
  (0x00#8 ∉ opRows.map Prod.fst) ∧
  ∀ (s : State) (r : HostReq) (rest : List HostReq), s.busy = false → s.port = r :: rest →
    opField r.word ∉ opRows.map Prod.fst → step s = .refused (.unassignedOp (opField r.word))

/-! ### Admission -/

/-- R28: while BUSY no operation runs, and a request presented without waiting for BUSY to fall is refused. That the refusal
is called requestWhileBusy whatever CFG_OK and INIT_DONE are is the model's order of the refusals (log entry 12), and the
flag by which a request waits for BUSY is the model's port (log entry 1). -/
def Obligations.RequestWhileBusyIsRefused : Prop :=
  (∀ (i : Instr) (s : State), s.busy = true → exec i s = .refused .requestWhileBusy) ∧
  (∀ (s : State) (r : HostReq) (rest : List HostReq), s.busy = true → s.port = r :: rest → r.waits = false →
    step s = .refused .requestWhileBusy)

/-- R29: INIT_DONE is false at reset and BEGIN sets it at its completion; every operation but BEGIN is refused while it is
false, and BEGIN while it is true; the reasons the model gives when nothing else refuses are beforeBegin and secondBegin. -/
def Obligations.InitDoneGatesEveryOperation : Prop :=
  (∀ (cfg : Cfg) (l : Launch), (State.construct cfg l).initDone = false) ∧
  (∀ s : State, s.ReadyForBegin → s.EngineReturns → ∃ t, exec .beginInit s = .next t ∧ t.initDone = true) ∧
  (∀ (i : Instr) (s : State), i ≠ .beginInit → s.initDone = false → ∃ r, exec i s = .refused r) ∧
  (∀ (i : Instr) (s : State), i ≠ .beginInit → s.busy = false → s.cfgOk = true → s.initDone = false →
    exec i s = .refused .beforeBegin) ∧
  (∀ s : State, s.initDone = true → ∃ r, exec .beginInit s = .refused r) ∧
  (∀ s : State, s.busy = false → s.cfgOk = true → s.initDone = true → exec .beginInit s = .refused .secondBegin)

/-- R30: CFG_OK is the result of validation and never changes; when it is false no operation is accepted and every request
presented is refused. That an idle block's refusal of an operation is called configInvalid whatever INIT_DONE is is the
model's order of the refusals (log entry 12), and the last clause takes the request from the model's port (log entry 1). -/
def Obligations.ConfigOkGatesEveryOperation : Prop :=
  (∀ (cfg : Cfg) (l : Launch), (State.construct cfg l).cfgOk = cfg.valid) ∧
  (∀ (i : Instr) (s : State), s.cfgOk = false → ∃ r, exec i s = .refused r) ∧
  (∀ (i : Instr) (s : State), s.busy = false → s.cfgOk = false → exec i s = .refused .configInvalid) ∧
  (∀ s t : State, step s = .next t → t.cfgOk = s.cfgOk) ∧
  (∀ (s : State) (r : HostReq) (rest : List HostReq), s.busy = false → s.cfgOk = false → s.port = r :: rest →
    ∃ x, step s = .refused x)

/-- R242: `valid(CFG)` is the conjunction of the five items, and ConfigInvalid is raised exactly when it is false. -/
def Obligations.ValidIsTheFiveItems : Prop :=
  (∀ c : Cfg, c.valid = true ↔
    ((c.w % 2 = 0 ∧ 2 ≤ c.w ∧ 1 ≤ c.h ∧ c.w ≤ 32767 ∧ c.h ≤ 32767) ∧
    (c.busMode = .hw → c.pins.data = .engine ∧ c.pins.clock = .engine) ∧
    (c.busMode = .bitbang → ∃ d k s m, c.pins.data = .pin d ∧ c.pins.clock = .pin k ∧ c.pins.cs = .pin s
      ∧ c.pins.dc = .pin m) ∧
    (∀ (m n : Nat) (id : Nat),
      [c.pins.data, c.pins.clock, c.pins.cs, c.pins.dc, c.pins.reset][m]? = some (.pin id) →
      [c.pins.data, c.pins.clock, c.pins.cs, c.pins.dc, c.pins.reset][n]? = some (.pin id) → m = n) ∧
    (∀ k : BeginKey, (c.init.get k).length = (c.cmd.get k.cmdKey).n) ∧
    (c.cmd.get .setColumn).n = 2 ∧ (c.cmd.get .setRow).n = 2 ∧ (c.cmd.get .contrast).n = 1
      ∧ (c.cmd.get .remap).n = 2 ∧ (c.cmd.get .startLine).n = 1)) ∧
  (∀ c : Cfg, c.configInvalid = none ↔ c.valid = true)

/-- 95_test_vectors.md T-CFG: configurations the spec calls valid or invalid. -/
def Obligations.SpecConfigurationsValidate : Prop :=
  Cfg.standard.valid = true ∧
  ({ Cfg.standard with w := 128 } : Cfg).valid = true ∧ ({ Cfg.standard with w := 128 } : Cfg).fbSize = 4096 ∧
  ({ Cfg.standard with w := 2, h := 1 } : Cfg).valid = true ∧ ({ Cfg.standard with w := 2, h := 1 } : Cfg).fbSize = 1 ∧
  ({ Cfg.standard with w := 255 } : Cfg).configInvalid = some .geometry ∧
  ({ Cfg.standard with w := 0 } : Cfg).configInvalid = some .geometry ∧
  ({ Cfg.standard with h := 0 } : Cfg).configInvalid = some .geometry ∧
  ({ Cfg.standard with pins := { Cfg.standard.pins with clock := .unbound } } : Cfg).configInvalid
    = some .discreteBinding ∧
  ({ Cfg.standard with busMode := .hw, pins := { Cfg.standard.pins with clock := .engine } } : Cfg).configInvalid
    = some .engineBinding ∧
  ({ Cfg.standard with pins := { Cfg.standard.pins with dc := .pin 2 } } : Cfg).configInvalid = some .sharedPin ∧
  ({ Cfg.standard with init := { InitTable.standard with remap := [0x14#8] } } : Cfg).configInvalid
    = some .parameterCounts

/-- R240, R289: every admitted operation completes, whatever its operands, when every transfer returns: the pixel operations
on an even width, which every valid CFG has, and BITMAP with its source inside BMP. BUSY is then false, SEQ idle, CFG and
REQ as they were. -/
def Obligations.AdmittedOperationsComplete : Prop :=
  ∀ (i : Instr) (s : State), admission (gateOf i) s = none → s.EngineReturns → s.cfg.w % 2 = 0 →
    (∀ x y src w h c, i = .bitmap x y src w h c → sourceBeyond s.cfg src.toNat w h = false) →
    ∃ t, exec i s = .next t ∧ t.busy = false ∧ t.seq = none ∧ t.cfg = s.cfg ∧ t.req = s.req

/-- R240: where the invariants hold no step faults: the block has no fault of its own. -/
def Obligations.InvariantStatesNeverFault : Prop :=
  ∀ (s : State) (f : Fault), s.Inv → step s ≠ .fault f

/-- The model's choice (log entry 13), R54: on an odd width, which no valid CFG has, an admitted pixel operation stops by name:
the indexer has no meaning there. BITMAP is refused first when its source leaves BMP. -/
def Obligations.OddWidthStopsThePixelOperations : Prop :=
  ∀ (s : State) (x y l w h : Int) (src : Arg) (c : Color), s.Ready → s.cfg.w % 2 = 1 →
    exec (.setpixel x y c) s = .fault .oddWidth ∧ exec (.vline x y l c) s = .fault .oddWidth ∧
    exec (.hline x y l c) s = .fault .oddWidth ∧
    (sourceBeyond s.cfg src.toNat w h = false → exec (.bitmap x y src w h c) s = .fault .oddWidth)

/-! ### Reset -/

/-- R32: what reset leaves, for every CFG and for every value of what the spec leaves unspecified (FB, REQ, DC, DATA). -/
def Obligations.ResetLeavesTheSpecValues : Prop :=
  ∀ (cfg : Cfg) (l : Launch),
    (State.construct cfg l).scroll = .inactive ∧ (State.construct cfg l).scrollCfg = none ∧
    (State.construct cfg l).busy = false ∧ (State.construct cfg l).initDone = false ∧
    (State.construct cfg l).seq = none ∧ (State.construct cfg l).trace = [] ∧ (State.construct cfg l).pinTrace = [] ∧
    (State.construct cfg l).cfg = cfg ∧ (State.construct cfg l).cfgOk = cfg.valid ∧
    (State.construct cfg l).fb = l.fb ∧ (State.construct cfg l).req = l.req ∧
    (State.construct cfg l).pins.cs = (!cfg.csActive) ∧ (State.construct cfg l).pins.clk = (!cfg.clkActive) ∧
    (State.construct cfg l).pins.dc = l.dc ∧ (State.construct cfg l).pins.data = l.data

/-- The invariants hold after construction with memories in canonical form, and at `State.reset`. -/
def Obligations.ResetMeetsTheInvariants : Prop :=
  (∀ (cfg : Cfg) (l : Launch), l.Ok cfg → (State.construct cfg l).Inv ∧ (State.construct cfg l).TraceInv) ∧
  State.reset.Inv ∧ State.reset.TraceInv

/-! ### Invariants of every step -/

/-- R34, R35, R30: CS and CLK are inactive and SEQ idle whenever BUSY is false, SCROLLCFG is none exactly when SCROLL is
INACTIVE, the memories keep their form and extent, CFG_OK stays the result of validation, and BUSY stays true only inside a
call that waits for the engine. -/
def Obligations.StepKeepsTheInvariants : Prop :=
  ∀ s t : State, s.Inv → step s = .next t → t.Inv

/-- R119: the byte-level trace is what a receiver reads from the pin-level trace, and no partial byte occurs. -/
def Obligations.StepKeepsTheTracesTogether : Prop :=
  ∀ s t : State, s.Inv → s.TraceInv → step s = .next t → t.TraceInv

/-- R24, R35, R55: no step writes CFG, the size of FB or BMP. The last clause is the model's choice (log entries 6 and 20):
no step writes the block's record of the level of the reset signal, although BEGIN pulses that line; R158 records the pulse
as the opaque event Rst of the byte-level trace and gives the line no level. -/
def Obligations.StepKeepsConfiguration : Prop :=
  ∀ s t : State, step s = .next t →
    t.cfg = s.cfg ∧ t.cfg.fbSize = s.cfg.w * s.cfg.h / 2 ∧ t.bmp = s.bmp ∧ t.pins.rst = s.pins.rst

/-- R33: both traces only grow, and in mode BITBANG what a step appends is in data-before-clock order (R118). -/
def Obligations.TracesGrowDataBeforeClock : Prop :=
  ∀ s t : State, step s = .next t →
    (∃ fs, t.trace = s.trace ++ fs) ∧
    ∃ evs, t.pinTrace = s.pinTrace ++ evs ∧ (s.cfg.busMode = .bitbang → DataBeforeClock s.cfg evs)

/-- R277: in mode HW the pin-level trace holds no DATA and no CLK event. -/
def Obligations.EnginePinsAreNeverBitBanged : Prop :=
  (∀ (cfg : Cfg) (l : Launch), (State.construct cfg l).pinTrace.any PinEvent.isDataOrClk = false) ∧
  ∀ s t : State, s.cfg.busMode = .hw → s.pinTrace.any PinEvent.isDataOrClk = false → step s = .next t →
    t.pinTrace.any PinEvent.isDataOrClk = false ∧ t.pins.data = s.pins.data ∧ t.pins.clk = s.pins.clk

/-- R220, R230, R226: no operation but STARTSCROLL* and STOPSCROLL changes SCROLL or SCROLLCFG; and no step does, be it the
acceptance of a request or the engine's step that resumes an operation that waited (R255, R121), unless the operation it
works on is one of those five. -/
def Obligations.OnlyScrollOperationsWriteScroll : Prop :=
  (∀ (i : Instr) (s t : State), exec i s = .next t → writesScroll i = false →
    t.scroll = s.scroll ∧ t.scrollCfg = s.scrollCfg) ∧
  (∀ s t : State, step s = .next t → (∀ i, s.operation = some i → writesScroll i = false) →
    t.scroll = s.scroll ∧ t.scrollCfg = s.scrollCfg)

/-- R65, R66, R140, R159, R229: no operation but the six primitives and DISPLAY with its flag set changes FB; and no step
does, be it the acceptance of a request or the engine's step that resumes an operation that waited (R255, R121), unless the
operation it works on is one of those seven. -/
def Obligations.OnlyDrawingChangesTheFramebuffer : Prop :=
  (∀ (i : Instr) (s t : State), exec i s = .next t → writesFb i = false → t.fb = s.fb) ∧
  (∀ s t : State, step s = .next t → (∀ i, s.operation = some i → writesFb i = false) → t.fb = s.fb)

/-- R26, R226: nothing reads SCROLL or SCROLLCFG: with any other values in them every operation, and every step, the
engine's step that resumes a waiting operation included (R255, R121), that answers a next state answers the same one but for
those two fields, with the same FB, pins and traces. -/
def Obligations.ScrollStateChangesNothingElse : Prop :=
  (∀ (i : Instr) (s t : State) (a : ScrollState) (b : Option ScrollCfg), exec i s = .next t →
    ∃ t', exec i { s with scroll := a, scrollCfg := b } = .next t' ∧
      { t' with scroll := t.scroll, scrollCfg := t.scrollCfg } = t) ∧
  (∀ (s t : State) (a : ScrollState) (b : Option ScrollCfg), step s = .next t →
    ∃ t', step { s with scroll := a, scrollCfg := b } = .next t' ∧
      { t' with scroll := t.scroll, scrollCfg := t.scrollCfg } = t)

/-! ### Bus Transport -/

/-- R111: SENDCMD is op 0x01 with its byte in a0[7:0]; it writes DC low, asserts CS, shifts the byte, de-asserts CS, appends
one command frame, and changes nothing but the pins and the traces. -/
def Obligations.SendcmdSendsOneCommandByte : Prop :=
  (∀ w : Request, opField w = 0x01#8 → decode w = .ok (.sendcmd (byteOf (arg0 w)))) ∧
  (∀ (s : State) (b : Byte), s.Ready → s.EngineReturns →
    ∃ t, exec (.sendcmd b) s = .next t ∧ s.SentOnly t [.frame false [b]] ∧
      t.pinTrace = s.pinTrace ++ [.pin .dc false, .pin .cs s.cfg.csActive] ++ shift s.cfg [b]
        ++ [.pin .cs (!s.cfg.csActive)] ∧
      t.pins.dc = false ∧ t.pins.cs = (!s.cfg.csActive))

/-- R112: SENDDATA is op 0x02 with its byte in a0[7:0]; it writes DC high, asserts CS, shifts the byte, de-asserts CS,
appends one data frame, and changes nothing but the pins and the traces. -/
def Obligations.SenddataSendsOneDataByte : Prop :=
  (∀ w : Request, opField w = 0x02#8 → decode w = .ok (.senddata (byteOf (arg0 w)))) ∧
  (∀ (s : State) (b : Byte), s.Ready → s.EngineReturns →
    ∃ t, exec (.senddata b) s = .next t ∧ s.SentOnly t [.frame true [b]] ∧
      t.pinTrace = s.pinTrace ++ [.pin .dc true, .pin .cs s.cfg.csActive] ++ shift s.cfg [b]
        ++ [.pin .cs (!s.cfg.csActive)] ∧
      t.pins.dc = true ∧ t.pins.cs = (!s.cfg.csActive))

/-- R114, R115: in mode BITBANG three pin writes a bit, data first, bit 7 first; in mode HW one engine transfer a call,
which the spec fixes only up to regrouping (log entry 10). -/
def Obligations.ShiftIsMsbFirstOrOneTransfer : Prop :=
  (∀ (cfg : Cfg) (bs : List Byte), cfg.busMode = .bitbang →
    shift cfg bs = bs.flatMap (fun b => [7, 6, 5, 4, 3, 2, 1, 0].flatMap (fun k =>
      [.pin .data (b.getLsbD k), .pin .clk cfg.clkActive, .pin .clk (!cfg.clkActive)]))) ∧
  (∀ (cfg : Cfg) (bs : List Byte), cfg.busMode = .hw → shift cfg bs = [.hw bs])

/-- R122, which the spec derives from R111 to R115: the pin levels after a transport call of bytes ending in `b`, and the
level of DC in each of the three calls. In mode HW R122 calls DATA and CLK no state of the block; that the block's record of
their levels is kept follows from R27 and R115, by which the block never writes them there. -/
def Obligations.PinLevelsAfterACall : Prop :=
  (∀ (c : Byte) (bs : List Byte),
    (sendcmd c).dc = false ∧ (senddata c).dc = true ∧ (sendblk bs).dc = true) ∧
  (∀ (cfg : Cfg) (p : Pins) (dc : Level) (bs : List Byte) (b : Byte),
    ((Call.events cfg { dc := dc, bytes := bs ++ [b] }).foldl Pins.apply p).cs = (!cfg.csActive) ∧
    ((Call.events cfg { dc := dc, bytes := bs ++ [b] }).foldl Pins.apply p).dc = dc ∧
    (cfg.busMode = .bitbang →
      ((Call.events cfg { dc := dc, bytes := bs ++ [b] }).foldl Pins.apply p).clk = (!cfg.clkActive) ∧
      ((Call.events cfg { dc := dc, bytes := bs ++ [b] }).foldl Pins.apply p).data = b.getLsbD 0) ∧
    (cfg.busMode = .hw →
      ((Call.events cfg { dc := dc, bytes := bs ++ [b] }).foldl Pins.apply p).clk = p.clk ∧
      ((Call.events cfg { dc := dc, bytes := bs ++ [b] }).foldl Pins.apply p).data = p.data))

/-- R121: in mode BITBANG a transport call of n bytes is exactly 24n + 3 pin writes. -/
def Obligations.PinWritesOfACall : Prop :=
  ∀ (cfg : Cfg) (c : Call), cfg.busMode = .bitbang →
    (c.events cfg).length = 24 * c.bytes.length + 3 ∧
    ∀ e ∈ c.events cfg, ∃ sig l, e = .pin sig l

/-- R123, which the spec derives from R111, R114 and R119: the worked pin-level example, and its reading back. -/
def Obligations.WorkedPinExample : Prop :=
  let d (l : Level) : List PinEvent := [.pin .data l, .pin .clk true, .pin .clk false]
  Call.events Cfg.standard (sendcmd 0xA5#8)
    = [.pin .dc false, .pin .cs false] ++ d true ++ d false ++ d true ++ d false ++ d false ++ d true ++ d false
      ++ d true ++ [.pin .cs true] ∧
  (Call.events Cfg.standard (sendcmd 0xA5#8)).length = 27 ∧
  (received Cfg.standard (Call.events Cfg.standard (sendcmd 0xA5#8))).frames = [.frame false [0xA5#8]]

/-! ### Command Encoder -/

/-- R143, R144, R150, R151: PWRON, PWROFF, SCROLLON and SCROLLOFF (op 0x10, 0x11, 0x17, 0x18) send one command each, display
on, display off, scroll activate, scroll deactivate, and change nothing in the block; the last two do not write SCROLL. -/
def Obligations.SwitchOperationsSendOneCommand : Prop :=
  (∀ w : Request, opField w = 0x10#8 → decode w = .ok (.pwron)) ∧
  (∀ w : Request, opField w = 0x11#8 → decode w = .ok (.pwroff)) ∧
  (∀ w : Request, opField w = 0x17#8 → decode w = .ok (.scrollon)) ∧
  (∀ w : Request, opField w = 0x18#8 → decode w = .ok (.scrolloff)) ∧
  (∀ s : State, s.Ready → s.EngineReturns →
    (∃ t, exec .pwron s = .next t ∧ s.SentOnly t [evC (s.cfg.opcode .displayOn)]) ∧
    (∃ t, exec .pwroff s = .next t ∧ s.SentOnly t [evC (s.cfg.opcode .displayOff)]) ∧
    (∃ t, exec .scrollon s = .next t ∧ s.SentOnly t [evC (s.cfg.opcode .scrollActivate)]) ∧
    (∃ t, exec .scrolloff s = .next t ∧ s.SentOnly t [evC (s.cfg.opcode .scrollDeactivate)]))

/-- R145: SETWIN (op 0x12) sends the column command and its two bytes, then the row command and its two, as given, and
changes nothing in the block. -/
def Obligations.SetwinSendsColumnThenRow : Prop :=
  (∀ w : Request, opField w = 0x12#8 →
    decode w = .ok (.setwin (byteOf (arg0 w)) (byteOf (arg1 w)) (byteOf (arg2 w)) (byteOf (arg3 w)))) ∧
  (∀ (s : State) (cs ce rs re : Byte), s.Ready → s.EngineReturns →
    ∃ t, exec (.setwin cs ce rs re) s = .next t ∧
      s.SentOnly t [evC (s.cfg.opcode .setColumn), evD cs, evD ce, evC (s.cfg.opcode .setRow), evD rs, evD re])

/-- R146, R147, R153: SETCONTRAST, SETREMAP and SETSTARTLINE (op 0x13, 0x14, 0x19) send their opcode and every parameter
byte as given, and change neither CFG nor anything else in the block. -/
def Obligations.ParameterOperationsPassBytesThrough : Prop :=
  (∀ w : Request, opField w = 0x13#8 → decode w = .ok (.setcontrast (byteOf (arg0 w)))) ∧
  (∀ w : Request, opField w = 0x14#8 → decode w = .ok (.setremap (byteOf (arg0 w)) (byteOf (arg1 w)))) ∧
  (∀ w : Request, opField w = 0x19#8 → decode w = .ok (.setstartline (byteOf (arg0 w)))) ∧
  (∀ (s : State) (a b : Byte), s.Ready → s.EngineReturns →
    (∃ t, exec (.setcontrast a) s = .next t ∧ s.SentOnly t [evC (s.cfg.opcode .contrast), evD a]) ∧
    (∃ t, exec (.setremap a b) s = .next t ∧ s.SentOnly t [evC (s.cfg.opcode .remap), evD a, evD b]) ∧
    (∃ t, exec (.setstartline a) s = .next t ∧ s.SentOnly t [evC (s.cfg.opcode .startLine), evD a]))

/-- R148: SELGRAY (op 0x15) sends the grayscale-select command with the configured parameters, as many as its entry of
CFG.CMD says when CFG is valid, and changes nothing in the block. -/
def Obligations.SelgraySendsTheConfiguredTable : Prop :=
  (∀ w : Request, opField w = 0x15#8 → decode w = .ok (.selgray)) ∧
  (∀ s : State, s.Ready → s.EngineReturns →
    (∃ t, exec .selgray s = .next t ∧
      s.SentOnly t (evC (s.cfg.opcode .graySelect) :: s.cfg.init.graySelect.map evD)) ∧
    (s.cfg.valid = true → s.cfg.init.graySelect.length = s.cfg.cmd.graySelect.n))

/-- R149: CFGSCROLL (op 0x16) sends the commands of CFG.SCROLL_FRAMES(diagonal, left, start, stop) in order, each opcode
followed by its parameters, and leaves SCROLL, SCROLLCFG and the rest of the block alone. The last clause says what the
default function gives; its bytes are PRESUMED (log entry 4): R149 marks them as general knowledge, not in the source. -/
def Obligations.CfgscrollSendsTheScrollFrames : Prop :=
  (∀ w : Request, opField w = 0x16#8 →
    decode w = .ok (.cfgscroll (byteOf (arg0 w)) (byteOf (arg1 w)) (flagOf (arg2 w)) (flag1Of (arg2 w)))) ∧
  (∀ (s : State) (start stop : Byte) (left diagonal : Bool), s.Ready → s.EngineReturns →
    ∃ t, exec (.cfgscroll start stop left diagonal) s = .next t ∧
      s.SentOnly t ((s.cfg.scrollCommands ⟨diagonal, left, start, stop⟩).flatMap
        (fun c => evC c.opcode :: c.params.map evD))) ∧
  (∀ (c : Cfg) (start stop : Byte), c.scrollFrames = .standard →
    c.scrollCommands ⟨false, false, start, stop⟩ = [⟨0x26, [0x00, start, 0x00, stop, 0x00, 0xFF]⟩] ∧
    c.scrollCommands ⟨false, true, start, stop⟩ = [⟨0x27, [0x00, start, 0x00, stop, 0x00, 0xFF]⟩] ∧
    c.scrollCommands ⟨true, false, start, stop⟩
      = [⟨0xA3, [0x00, BitVec.ofNat 8 c.h]⟩, ⟨0x29, [0x00, start, 0x00, stop, 0x01]⟩] ∧
    c.scrollCommands ⟨true, true, start, stop⟩
      = [⟨0xA3, [0x00, BitVec.ofNat 8 c.h]⟩, ⟨0x2A, [0x00, start, 0x00, stop, 0x01]⟩])

/-- R155, R156, R158: BEGIN (op 0x1F) is refused once INIT_DONE is true; before, it emits the opaque reset pulse if
configured, then the 21 commands in order, each opcode directly followed by its configured parameters, then sets INIT_DONE,
and leaves FB and all else as it was but for the pins and traces that sending writes. That the block's record of the level
of the reset signal is among what is left is the model's choice (log entries 6 and 20): R158 has BEGIN pulse that line and
R27 gives it no level. -/
def Obligations.BeginSendsTheFixedSequence : Prop :=
  (∀ s : State, s.Ready → exec .beginInit s = .refused .secondBegin) ∧
  (∀ w : Request, opField w = 0x1F#8 → decode w = .ok (.beginInit)) ∧
  (∀ s : State, s.ReadyForBegin → s.EngineReturns →
    ∃ t, exec .beginInit s = .next t ∧ t.initDone = true ∧
      s.SentOnly { t with initDone := s.initDone }
        ((if s.cfg.resetOnBegin then [Event.rst] else []) ++
          ([.cmdLock, .displayOff, .clockDiv, .muxRatio, .displayOffset, .startLine, .remap, .gpio, .funcSel, .enhA,
            .contrast, .masterCurrent, .graySelect, .phaseLen, .enhB, .prechargeV, .precharge2, .vcomh,
            .normalDisplay, .exitPartial, .displayOn] : List BeginKey).flatMap
              (fun k => evC (s.cfg.opcode k.cmdKey) :: (s.cfg.init.get k).map evD)))

/-! ### Framebuffer and primitives -/

/-- R53: the packer, the unpacker, `pixel`, and their three laws. -/
def Obligations.PackerLaws : Prop :=
  (∀ (b : Byte) (x : Nat), getnib b x = if x % 2 = 0 then b.extractLsb' 4 4 else b.extractLsb' 0 4) ∧
  (∀ (b : Byte) (x : Nat) (v : Nibble),
    setnib b x v = if x % 2 = 0 then v ++ b.extractLsb' 0 4 else b.extractLsb' 4 4 ++ v) ∧
  (∀ (cfg : Cfg) (fb : Mem) (x y : Nat), pixel cfg fb x y = getnib (fb.read (idx cfg x y)) x) ∧
  ∀ (b : Byte) (x : Nat) (v : Nibble),
    getnib (setnib b x v) x = v ∧
    (∀ z : Nat, z % 2 ≠ x % 2 → getnib (setnib b x v) z = getnib b z) ∧
    setnib b x (getnib b x) = b

/-- R51, R54: the indexer's formula, and its range on an even width. -/
def Obligations.IndexStaysInTheFramebuffer : Prop :=
  ∀ (cfg : Cfg) (x y : Nat), cfg.w % 2 = 0 → x < cfg.w → y < cfg.h →
    idx cfg x y = y * (cfg.w / 2) + x / 2 ∧
    idx cfg x y ≤ (cfg.h - 1) * (cfg.w / 2) + (cfg.w - 1) / 2 ∧
    (cfg.h - 1) * (cfg.w / 2) + (cfg.w - 1) / 2 = cfg.h * (cfg.w / 2) - 1 ∧
    cfg.h * (cfg.w / 2) - 1 = cfg.fbSize - 1 ∧ idx cfg x y < cfg.fbSize

/-- R51, R52: two different in-bounds pixels never share a nibble. -/
def Obligations.PixelsHaveTheirOwnNibble : Prop :=
  ∀ (cfg : Cfg) (x y x' y' : Nat), cfg.w % 2 = 0 → x < cfg.w → x' < cfg.w →
    idx cfg x y = idx cfg x' y' → x % 2 = x' % 2 → x = x' ∧ y = y'

/-- R180: what a colour makes of a nibble, INV being 15 − old, and the one-pixel update `setpix`. -/
def Obligations.ColourResolution : Prop :=
  (∀ (cfg : Cfg) (old n : Nibble),
    applyColor cfg old .off = cfg.offLevel ∧ applyColor cfg old .on = cfg.onLevel ∧
    applyColor cfg old .inv = old ^^^ 0xF#4 ∧ (applyColor cfg old .inv).toNat = 15 - old.toNat ∧
    applyColor cfg old (.raw n) = n) ∧
  (∀ (cfg : Cfg) (color : Color) (fb : Mem) (x y : Int),
    setpix cfg color fb x y =
      if x < 0 ∨ (cfg.w : Int) ≤ x ∨ y < 0 ∨ (cfg.h : Int) ≤ y then fb
      else fb.write (idx cfg x.toNat y.toNat) (setnib (fb.read (idx cfg x.toNat y.toNat)) x.toNat
        (applyColor cfg (getnib (fb.read (idx cfg x.toNat y.toNat)) x.toNat) color)))

/-- R181: SETPIXEL is op 0x20 with its operands in a0 to a2; it changes only its own pixel, to `apply(old, color)`, and
nothing when out of bounds; every other byte and nibble is kept, and so is all state but FB; writing the level the pixel has
leaves FB as it is, and INV twice restores it. -/
def Obligations.SetpixelWritesOnePixel : Prop :=
  (∀ w : Request, opField w = 0x20#8 →
    decode w = .ok (.setpixel (signedOf (arg0 w)) (signedOf (arg1 w)) (colorOf (arg2 w)))) ∧
  (∀ (s : State) (x y : Int) (color : Color), s.Ready → s.cfg.w % 2 = 0 → s.fb.wf = true →
    ∃ t, exec (.setpixel x y color) s = .next t ∧ s.FbOnly t ∧
      (x < 0 ∨ (s.cfg.w : Int) ≤ x ∨ y < 0 ∨ (s.cfg.h : Int) ≤ y → t.fb = s.fb) ∧
      (∀ px py : Nat, px < s.cfg.w → py < s.cfg.h →
        pixel s.cfg t.fb px py
          = if (px : Int) = x ∧ (py : Int) = y then applyColor s.cfg (pixel s.cfg s.fb px py) color
            else pixel s.cfg s.fb px py) ∧
      (∀ a : Nat, a ≠ idx s.cfg x.toNat y.toNat → t.fb.read a = s.fb.read a) ∧
      (color = .raw (pixel s.cfg s.fb x.toNat y.toNat) → t.fb = s.fb)) ∧
  (∀ (s : State) (x y : Int), s.Ready → s.cfg.w % 2 = 0 → s.fb.wf = true →
    ∃ t u, exec (.setpixel x y .inv) s = .next t ∧ exec (.setpixel x y .inv) t = .next u ∧ u.fb = s.fb)

/-- R182: VLINE is op 0x21; it applies the colour once to each pixel of the run (x, y) to (x, y + len − 1) that lies inside
the display, and changes no other pixel, no byte outside the run and no other state. -/
def Obligations.VlineWritesTheClippedRun : Prop :=
  (∀ w : Request, opField w = 0x21#8 →
    decode w = .ok (.vline (signedOf (arg0 w)) (signedOf (arg1 w)) (signedOf (arg2 w)) (colorOf (arg3 w)))) ∧
  (∀ (s : State) (x y len : Int) (color : Color), s.Ready → s.cfg.w % 2 = 0 → s.fb.wf = true →
    ∃ t, exec (.vline x y len color) s = .next t ∧ s.FbOnly t ∧
      (∀ px py : Nat, px < s.cfg.w → py < s.cfg.h →
        pixel s.cfg t.fb px py
          = if (px : Int) = x ∧ y ≤ (py : Int) ∧ (py : Int) < y + len
            then applyColor s.cfg (pixel s.cfg s.fb px py) color else pixel s.cfg s.fb px py) ∧
      (∀ a : Nat, (∀ p ∈ vlinePixels s.cfg x y len, a ≠ idx s.cfg p.1.toNat p.2.toNat) → t.fb.read a = s.fb.read a))

/-- R183: HLINE is op 0x22; it applies the colour once to each pixel of the run (x, y) to (x + len − 1, y) that lies inside
the display, and changes no other pixel, no byte outside the run and no other state; it never continues onto the next row.
-/
def Obligations.HlineWritesTheClippedRun : Prop :=
  (∀ w : Request, opField w = 0x22#8 →
    decode w = .ok (.hline (signedOf (arg0 w)) (signedOf (arg1 w)) (signedOf (arg2 w)) (colorOf (arg3 w)))) ∧
  (∀ (s : State) (x y len : Int) (color : Color), s.Ready → s.cfg.w % 2 = 0 → s.fb.wf = true →
    ∃ t, exec (.hline x y len color) s = .next t ∧ s.FbOnly t ∧
      (∀ px py : Nat, px < s.cfg.w → py < s.cfg.h →
        pixel s.cfg t.fb px py
          = if (py : Int) = y ∧ x ≤ (px : Int) ∧ (px : Int) < x + len
            then applyColor s.cfg (pixel s.cfg s.fb px py) color else pixel s.cfg s.fb px py) ∧
      (∀ a : Nat, (∀ p ∈ hlinePixels s.cfg x y len, a ≠ idx s.cfg p.1.toNat p.2.toNat) → t.fb.read a = s.fb.read a))

/-- R184: the whole-byte form of a horizontal run gives the framebuffer of the pixel-by-pixel form. -/
def Obligations.HlineByBytesIsHlineByPixels : Prop :=
  ∀ (cfg : Cfg) (x y len : Int) (color : Color) (fb : Mem), cfg.w % 2 = 0 → fb.wf = true → 0 < len → 0 ≤ y →
    y < (cfg.h : Int) →
    setpixels cfg color (hlinePixels cfg x y len) fb
      = runByBytes cfg color (max x 0).toNat (min (x + len) (cfg.w : Int)).toNat y.toNat fb

/-- R185: BITMAP is op 0x23; it applies the colour to the in-display pixels under set source bits, leaves every other pixel
and byte and all other state, and is a no-op for a non-positive size. When its source goes beyond BMP it is refused (R55);
that the bits of off-screen pixels count as its source too is DEDUCED (log entry 14). -/
def Obligations.BitmapDrawsUnderSetBits : Prop :=
  (∀ w : Request, opField w = 0x23#8 → decode w = .ok (.bitmap (signedOf (arg0 w)) (signedOf (arg1 w)) (arg2 w)
    (signedOf (arg3 w)) (signedOf (arg4 w)) (colorOf (arg5 w)))) ∧
  (∀ (s : State) (x y : Int) (src : Arg) (w h : Int) (color : Color), s.Ready →
    sourceBeyond s.cfg src.toNat w h = true → exec (.bitmap x y src w h color) s = .refused .bitmapBeyondSource) ∧
  (∀ (s : State) (x y : Int) (src : Arg) (w h : Int) (color : Color), s.Ready → s.cfg.w % 2 = 0 → s.fb.wf = true →
    sourceBeyond s.cfg src.toNat w h = false →
    ∃ t, exec (.bitmap x y src w h color) s = .next t ∧ s.FbOnly t ∧
      (w ≤ 0 ∨ h ≤ 0 → t.fb = s.fb) ∧
      (∀ px py : Nat, px < s.cfg.w → py < s.cfg.h →
        ((∃ i j : Nat, (i : Int) < w ∧ (j : Int) < h ∧ (px : Int) = x + i ∧ (py : Int) = y + j
            ∧ srcBit s.cfg s.bmp src.toNat w.toNat i j = true) →
          pixel s.cfg t.fb px py = applyColor s.cfg (pixel s.cfg s.fb px py) color) ∧
        ((¬ ∃ i j : Nat, (i : Int) < w ∧ (j : Int) < h ∧ (px : Int) = x + i ∧ (py : Int) = y + j
            ∧ srcBit s.cfg s.bmp src.toNat w.toNat i j = true) →
          pixel s.cfg t.fb px py = pixel s.cfg s.fb px py)) ∧
      (∀ a : Nat, (∀ p ∈ bitmapPixels s.cfg s.bmp x y src.toNat w h, inBounds s.cfg p.1 p.2 = true →
        a ≠ idx s.cfg p.1.toNat p.2.toNat) → t.fb.read a = s.fb.read a))

/-- R55: an admitted BITMAP is refused exactly when some source bit it would read lies in a byte at or beyond BMPSIZE; that
the bits of off-screen pixels are read too is DEDUCED (log entry 14). -/
def Obligations.BitmapBeyondSourceIsRefused : Prop :=
  ∀ (s : State) (x y : Int) (src : Arg) (w h : Int) (color : Color), s.Ready → s.cfg.w % 2 = 0 →
    (exec (.bitmap x y src w h color) s = .refused .bitmapBeyondSource ↔
      ∃ i j : Nat, (i : Int) < w ∧ (j : Int) < h ∧
        s.cfg.bmpSize.val ≤ src.toNat + srcBitIndex s.cfg.bmpRowMode w.toNat i j / 8)

/-- R187: FILL is op 0x24; it writes the level into both nibbles of every byte of FB, so that every pixel is the level, and
changes nothing else; a DISPLAY after it transmits a block every byte of which is the level twice. -/
def Obligations.FillWritesEveryByte : Prop :=
  (∀ w : Request, opField w = 0x24#8 → decode w = .ok (.fill (nibbleOf (arg0 w)))) ∧
  (∀ (s : State) (v : Nibble), s.Ready →
    ∃ t, exec (.fill v) s = .next t ∧ s.FbOnly t ∧ (∀ a : Nat, a < s.cfg.fbSize → t.fb.read a = v ++ v) ∧
      (s.fb.within s.cfg.fbSize = true → ∀ a : Nat, s.cfg.fbSize ≤ a → t.fb.read a = s.fb.read a) ∧
      (s.cfg.w % 2 = 0 → ∀ px py : Nat, px < s.cfg.w → py < s.cfg.h → pixel s.cfg t.fb px py = v)) ∧
  (∀ (s : State) (v : Nibble), s.Ready → s.EngineReturns →
    ∃ t u, exec (.fill v) s = .next t ∧ exec (.display false) t = .next u ∧
      ∃ pre, u.trace = s.trace ++ pre ++ [evC (s.cfg.opcode .writeRam), evDB (List.replicate s.cfg.fbSize (v ++ v))])

/-- R188: CLEAR is op 0x25; it writes 0x00 to every byte of FB whatever OFF_LEVEL is, and changes nothing else. -/
def Obligations.ClearWritesZeroToEveryByte : Prop :=
  (∀ w : Request, opField w = 0x25#8 → decode w = .ok (.clear)) ∧
  (∀ s : State, s.Ready →
    ∃ t, exec .clear s = .next t ∧ s.FbOnly t ∧ (∀ a : Nat, a < s.cfg.fbSize → t.fb.read a = 0x00#8) ∧
      (s.fb.within s.cfg.fbSize = true → ∀ a : Nat, s.cfg.fbSize ≤ a → t.fb.read a = s.fb.read a))

/-- R65, R189: none of the six primitives transmits, drives a pin or writes anything but FB, in every state they run in. -/
def Obligations.PrimitivesTransmitNothing : Prop :=
  ∀ (i : Instr) (s t : State),
    (∃ x y c, i = .setpixel x y c) ∨ (∃ x y l c, i = .vline x y l c) ∨ (∃ x y l c, i = .hline x y l c)
      ∨ (∃ x y src w h c, i = .bitmap x y src w h c) ∨ (∃ v, i = .fill v) ∨ i = .clear →
    exec i s = .next t → s.FbOnly t

/-! ### Display Flush -/

/-- R210: DISPLAY (op 0x30) sends the full window, write-RAM and the whole framebuffer as it was, in ascending order, as
eight frames, and then, only if the flag is set, clears every byte; it changes nothing else. -/
def Obligations.DisplaySendsTheWholeFramebuffer : Prop :=
  (∀ w : Request, opField w = 0x30#8 → decode w = .ok (.display (flagOf (arg0 w)))) ∧
  (∀ (s : State) (flag : Bool), s.Ready → s.EngineReturns →
    ∃ t, exec (.display flag) s = .next t ∧
      s.SentOnly { t with fb := s.fb }
        [evC (s.cfg.opcode .setColumn), evD s.cfg.fullWin.cs, evD s.cfg.fullWin.ce,
         evC (s.cfg.opcode .setRow), evD s.cfg.fullWin.rs, evD s.cfg.fullWin.re,
         evC (s.cfg.opcode .writeRam), evDB ((List.range s.cfg.fbSize).map (fun n => s.fb.read n))] ∧
      (flag = false → t.fb = s.fb) ∧
      (flag = true → (∀ a : Nat, a < s.cfg.fbSize → t.fb.read a = 0x00#8) ∧
        (s.fb.within s.cfg.fbSize = true → ∀ a : Nat, s.cfg.fbSize ≤ a → t.fb.read a = s.fb.read a)))

/-- R214: a DISPLAY in mode BITBANG is 24*(7 + FBSIZE) + 3*8 pin writes, and one write-RAM command with FBSIZE bytes after. -/
def Obligations.DisplayPinWrites : Prop :=
  ∀ (s : State) (flag : Bool), s.Ready → s.cfg.busMode = .bitbang →
    ∃ t, exec (.display flag) s = .next t ∧
      t.pinTrace.length = s.pinTrace.length + (24 * (7 + s.cfg.fbSize) + 3 * 8) ∧
      ∃ pre bs, t.trace = s.trace ++ pre ++ [evC (s.cfg.opcode .writeRam), evDB bs] ∧ pre.length = 6 ∧
        bs.length = s.cfg.fbSize

/-- R160: the encoder has no memory: a SETWIN before DISPLAY changes nothing DISPLAY sends. -/
def Obligations.SetwinDoesNotChangeDisplay : Prop :=
  ∀ (s : State) (cs ce rs re : Byte) (flag : Bool), s.Ready → s.EngineReturns →
    ∃ t u v fs, exec (.setwin cs ce rs re) s = .next t ∧ exec (.display flag) t = .next u ∧
      exec (.display flag) s = .next v ∧ u.trace = t.trace ++ fs ∧ v.trace = s.trace ++ fs ∧ u.fb = v.fb

/-! ### Scroll and display mode -/

/-- R221 to R224: the four start-scroll operations (op 0x40 to 0x43) send the configure frames and then the activate
command, set SCROLL to ACTIVE and SCROLLCFG to their direction and rows, from either state, and change nothing else in the
block. -/
def Obligations.StartScrollSendsAndActivates : Prop :=
  (∀ w : Request, opField w = 0x40#8 → decode w = .ok (.startscrollright (byteOf (arg0 w)) (byteOf (arg1 w)))) ∧
  (∀ w : Request, opField w = 0x41#8 → decode w = .ok (.startscrollleft (byteOf (arg0 w)) (byteOf (arg1 w)))) ∧
  (∀ w : Request, opField w = 0x42#8 → decode w = .ok (.startscrolldiagright (byteOf (arg0 w)) (byteOf (arg1 w)))) ∧
  (∀ w : Request, opField w = 0x43#8 → decode w = .ok (.startscrolldiagleft (byteOf (arg0 w)) (byteOf (arg1 w)))) ∧
  (∀ (s : State) (start stop : Byte), s.Ready → s.EngineReturns →
    ∀ (i : Instr) (k : ScrollCfg),
      (i = .startscrollright start stop ∧ k = ⟨false, false, start, stop⟩) ∨
      (i = .startscrollleft start stop ∧ k = ⟨false, true, start, stop⟩) ∨
      (i = .startscrolldiagright start stop ∧ k = ⟨true, false, start, stop⟩) ∨
      (i = .startscrolldiagleft start stop ∧ k = ⟨true, true, start, stop⟩) →
      ∃ t, exec i s = .next t ∧ t.scroll = .active ∧ t.scrollCfg = some k ∧
        s.SentOnly { t with scroll := s.scroll, scrollCfg := s.scrollCfg }
          (commandFrames (s.cfg.scrollCommands k) ++ [evC (s.cfg.opcode .scrollActivate)]))

/-- R225: STOPSCROLL (op 0x44) sends the deactivate command and sets SCROLL to INACTIVE and SCROLLCFG to none, from either
state, and changes nothing else in the block. -/
def Obligations.StopScrollSendsAndDeactivates : Prop :=
  (∀ w : Request, opField w = 0x44#8 → decode w = .ok (.stopscroll)) ∧
  (∀ s : State, s.Ready → s.EngineReturns →
    ∃ t, exec .stopscroll s = .next t ∧ t.scroll = .inactive ∧ t.scrollCfg = none ∧
      s.SentOnly { t with scroll := s.scroll, scrollCfg := s.scrollCfg } [evC (s.cfg.opcode .scrollDeactivate)])

/-- R227, R152: INVERTDISPLAY (op 0x45) sends the inverted display command for 1 and the normal one for 0, and changes
nothing in the block, FB included. -/
def Obligations.InvertdisplaySendsTheModeCommand : Prop :=
  (∀ w : Request, opField w = 0x45#8 → decode w = .ok (.invertdisplay (flagOf (arg0 w)))) ∧
  (∀ s : State, s.Ready → s.EngineReturns →
    (∃ t, exec (.invertdisplay true) s = .next t ∧ s.SentOnly t [evC (s.cfg.opcode .invertDisplay)]) ∧
    (∃ t, exec (.invertdisplay false) s = .next t ∧ s.SentOnly t [evC (s.cfg.opcode .normalDisplay)]))

/-- R228, R154: DIM (op 0x46) sends the commands of CFG.DIM_FRAMES and changes neither FB nor CFG nor anything else in the
block. The last clause says what the default function gives; it is PRESUMED (log entry 4): R154 marks it as general
knowledge, not in the source. -/
def Obligations.DimSendsTheDimFrames : Prop :=
  (∀ w : Request, opField w = 0x46#8 → decode w = .ok (.dim (flagOf (arg0 w)))) ∧
  (∀ (s : State) (flag : Bool), s.Ready → s.EngineReturns →
    ∃ t, exec (.dim flag) s = .next t ∧ s.SentOnly t (commandFrames (s.cfg.dimCommands flag))) ∧
  (∀ c : Cfg, c.dimFrames = .standard →
    c.dimCommands true = [⟨c.opcode .contrast, [c.init.dimContrast]⟩] ∧
    c.dimCommands false = [⟨c.opcode .contrast, c.init.contrast⟩])

/-! ### Hangs -/

/-- R255, R121, R213: when the engine returns from the first m transfers of an accepted sending operation and never from the
next, for every m below the number of its transfers, BUSY is true, CS asserted, SEQ in that transfer, FB kept, the frames of
the m transfers and no later one emitted, and every later step leaves the same state; in mode BITBANG no operation is left
BUSY. The list of the engine's answers, true for a return, and what SEQ's byte and bit index hold meanwhile are the model's
choice (log entries 9 and 11); the request comes from the model's port (log entry 1). -/
def Obligations.StalledTransferHangs : Prop :=
  (∀ (s : State) (r : HostReq) (i : Instr) (m : Nat), s.busy = false → s.cfg.busMode = .hw → s.port = [r] →
    decode r.word = .ok i → admission (gateOf i) s = none → m < (planOf i s).calls.length →
    s.engine = { script := List.replicate m true, tail := false } →
    ∃ t, step s = .next t ∧ t.busy = true ∧ t.pins.cs = s.cfg.csActive ∧ t.fb = s.fb ∧
      t.seq = some { call := m, byteIdx := 0, bitIdx := 7 } ∧
      t.trace.filter Event.isFrame
        = s.trace.filter Event.isFrame ++ ((planOf i s).calls.take m).map Call.frame ∧
      step t = .next t) ∧
  (∀ (i : Instr) (s t : State), s.cfg.busMode = .bitbang → exec i s = .next t → t.busy = false)

/-- R121, R255, R289: an engine that answers late, in any transfers and any number of times, and in the end always returns
(every list of answers, then returns for ever), only delays the one request at the port: after at most one step more than
the list is long the outcome, a next state, a refusal or a fault, is that of an engine that returns at once, but for the
answers not yet read. How the engine's answers are held is the model's choice (log entries 9 and 11), and so is the port
(log entry 1). -/
def Obligations.StallOnlyDelays : Prop :=
  ∀ (s : State) (r : HostReq) (script : List Bool), s.busy = false → s.port = [r] →
    s.engine = { script := script, tail := true } →
    (∀ t, step { s with engine := { script := [], tail := true } } = .next t →
      ∃ rest, rest <:+ script ∧
        Sys2Proof.core.run (script.length + 1) s = .next { t with engine := { script := rest, tail := true } }) ∧
    (∀ x, step { s with engine := { script := [], tail := true } } = .refused x →
      Sys2Proof.core.run (script.length + 1) s = .refused x) ∧
    (∀ x, step { s with engine := { script := [], tail := true } } = .fault x →
      Sys2Proof.core.run (script.length + 1) s = .fault x)

/-- R255, R121, R92: one step of a busy block that waits in transport call `pos.call` of the operation latched in REQ, no
request being presented meanwhile. While the engine does not return only its answers advance; when it returns from this
transfer and every later one, that call ends, its frame is emitted, the calls after it run in order, and the operation's
last effect happens, with BUSY false and SEQ idle. The engine's answers and what a waiting operation is resumed from are the
model's choice (log entries 9 and 11). -/
def Obligations.EngineReturnResumesTheOperation : Prop :=
  ∀ (s : State) (i : Instr) (pos : SeqPos) (c : Call), s.busy = true → s.cfg.busMode = .hw → s.impatient = false →
    decode s.req = .ok i → s.seq = some pos → (planOf i s).calls[pos.call]? = some c →
    (s.engine.poll.1 = false → step s = .next { s with engine := s.engine.poll.2 }) ∧
    (s.EngineReturns →
      let rest := (planOf i s).calls.drop (pos.call + 1)
      let events := closing s.cfg ++ rest.flatMap (Call.events s.cfg)
      step s = .next ((planOf i s).finish
        { s with
          pins := events.foldl Pins.apply s.pins
          pinTrace := s.pinTrace ++ events
          trace := s.trace ++ c.frame :: rest.map Call.frame
          engine := { s.engine with script := s.engine.script.drop (rest.length + 1) }
          busy := false
          seq := none }))
end

