-- ==== Sys2Proof/Laws/Encoding.lean ====
section
/-! SUPPORT. The fields of a request word put together by `requestOf`, the operands read back, and the operation map. -/

namespace Sys2Proof

variable (op : Byte) (a0 a1 a2 a3 a4 a5 : Arg)

/-- A field that lies in the left part of an append. -/
theorem extract_append_left {m n : Nat} (x : BitVec m) (y : BitVec n) (s l : Nat) :
    (x ++ y).extractLsb' (n + s) l = x.extractLsb' s l := by
  apply BitVec.eq_of_getLsbD_eq
  intro i hi
  have h : ¬ n + s + i < n := by omega
  have h' : n + s + i - n = s + i := by omega
  simp [BitVec.getLsbD_append, hi, h, h']

/-- A field that lies in the right part of an append. -/
theorem extract_append_right {m n : Nat} (x : BitVec m) (y : BitVec n) (s l : Nat) (h : s + l ≤ n) :
    (x ++ y).extractLsb' s l = y.extractLsb' s l := by
  apply BitVec.eq_of_getLsbD_eq
  intro i hi
  have h' : s + i < n := by omega
  simp [BitVec.getLsbD_append, hi, h']

@[simp] theorem opField_requestOf : opField (requestOf op a0 a1 a2 a3 a4 a5) = op :=
  (extract_append_left _ a5 80 8).trans
    ((extract_append_left _ a4 64 8).trans
    ((extract_append_left _ a3 48 8).trans
    ((extract_append_left _ a2 32 8).trans
    ((extract_append_left _ a1 16 8).trans
    ((extract_append_left _ a0 0 8).trans BitVec.extractLsb'_eq_self)))))

@[simp] theorem arg0_requestOf : arg0 (requestOf op a0 a1 a2 a3 a4 a5) = a0 :=
  (extract_append_left _ a5 64 16).trans
    ((extract_append_left _ a4 48 16).trans
    ((extract_append_left _ a3 32 16).trans
    ((extract_append_left _ a2 16 16).trans
    ((extract_append_left _ a1 0 16).trans
    ((extract_append_right _ a0 0 16 (Nat.le_refl _)).trans BitVec.extractLsb'_eq_self)))))

@[simp] theorem arg1_requestOf : arg1 (requestOf op a0 a1 a2 a3 a4 a5) = a1 :=
  (extract_append_left _ a5 48 16).trans
    ((extract_append_left _ a4 32 16).trans
    ((extract_append_left _ a3 16 16).trans
    ((extract_append_left _ a2 0 16).trans
    ((extract_append_right _ a1 0 16 (Nat.le_refl _)).trans BitVec.extractLsb'_eq_self))))

@[simp] theorem arg2_requestOf : arg2 (requestOf op a0 a1 a2 a3 a4 a5) = a2 :=
  (extract_append_left _ a5 32 16).trans
    ((extract_append_left _ a4 16 16).trans
    ((extract_append_left _ a3 0 16).trans
    ((extract_append_right _ a2 0 16 (Nat.le_refl _)).trans BitVec.extractLsb'_eq_self)))

@[simp] theorem arg3_requestOf : arg3 (requestOf op a0 a1 a2 a3 a4 a5) = a3 :=
  (extract_append_left _ a5 16 16).trans
    ((extract_append_left _ a4 0 16).trans
    ((extract_append_right _ a3 0 16 (Nat.le_refl _)).trans BitVec.extractLsb'_eq_self))

@[simp] theorem arg4_requestOf : arg4 (requestOf op a0 a1 a2 a3 a4 a5) = a4 :=
  (extract_append_left _ a5 0 16).trans
    ((extract_append_right _ a4 0 16 (Nat.le_refl _)).trans BitVec.extractLsb'_eq_self)

@[simp] theorem arg5_requestOf : arg5 (requestOf op a0 a1 a2 a3 a4 a5) = a5 :=
  (extract_append_right _ a5 0 16 (Nat.le_refl _)).trans BitVec.extractLsb'_eq_self

/-! ### Operands -/

@[simp] theorem byteOf_ofByte (b : Byte) : byteOf (ofByte b) = b := BitVec.extractLsb'_append_eq_right

@[simp] theorem nibbleOf_ofNibble (n : Nibble) : nibbleOf (ofNibble n) = n := BitVec.extractLsb'_append_eq_right

@[simp] theorem flagOf_ofFlag (f : Bool) : flagOf (ofFlag f) = f := by cases f <;> rfl

@[simp] theorem flagOf_ofFlags (lo hi : Bool) : flagOf (ofFlags lo hi) = lo := by cases lo <;> cases hi <;> rfl

@[simp] theorem flag1Of_ofFlags (lo hi : Bool) : flag1Of (ofFlags lo hi) = hi := by cases lo <;> cases hi <;> rfl

/-- A signed operand that fits its field is read back (R82). -/
theorem signedOf_ofSigned {v : Int} (h : fitsSigned16 v = true) : signedOf (ofSigned v) = v := by
  simp only [fitsSigned16, Bool.and_eq_true, decide_eq_true_eq] at h
  simp only [signedOf, ofSigned, BitVec.toInt_ofInt]
  rw [Int.bmod_eq_of_le] <;> omega

/-- What a 16-bit two's-complement field holds fits it (R82). -/
theorem fits_signedOf (a : Arg) : fitsSigned16 (signedOf a) = true := by
  have h1 := BitVec.le_toInt a
  have h2 := BitVec.toInt_lt (x := a)
  simp only [fitsSigned16, signedOf, Bool.and_eq_true]
  exact ⟨decide_eq_true (by simpa using h1), decide_eq_true (by omega)⟩

@[simp] theorem colorOf_ofColor (c : Color) : colorOf (ofColor c) = c := by
  cases c with
  | off => rfl
  | on => rfl
  | inv => rfl
  | raw n =>
    have h : (ofColor (.raw n)).extractLsb' 4 2 = 3#2 := extract_append_left 0x003#12 n 0 2
    have h' : nibbleOf (ofColor (.raw n)) = n := BitVec.extractLsb'_append_eq_right
    simp [colorOf, h, h']

/-! ### The operation map -/

/-- The operation codes are distinct (R84, R94). -/
theorem opRows_codes_nodup : (opRows.map Prod.fst).Nodup := by decide

/-- The operation map has the 27 rows of R84. -/
theorem opRows_length : opRows.length = 27 := rfl

/-- Two rows with one code are one row. -/
theorem opRows_code_inj : ∀ r ∈ opRows, ∀ r' ∈ opRows, r.1 = r'.1 → r = r' := by
  intro r hr r' hr' h
  obtain ⟨i, hi, rfl⟩ := List.getElem_of_mem hr
  obtain ⟨j, hj, rfl⟩ := List.getElem_of_mem hr'
  have hij : i = j := by
    apply (List.getElem_inj opRows_codes_nodup (i := i) (j := j) (h₀ := by simpa using hi) (h₁ := by simpa using hj)).mp
    simpa using h
  subst hij
  rfl

/-- A word with a row's code is decoded by that row (R93). -/
theorem decode_of_mem {w : Request} {r : OpRow} (hr : r ∈ opRows) (hc : opField w = r.1) : decode w = .ok (r.2 w) := by
  unfold decode
  cases h : opRows.find? (fun r => r.1 == opField w) with
  | none =>
    rw [List.find?_eq_none] at h
    exact absurd (by simp [hc]) (h r hr)
  | some r' =>
    have hm := List.mem_of_find?_eq_some h
    have he : r'.1 = opField w := by simpa using List.find?_some h
    rw [opRows_code_inj r' hm r hr (he.trans hc)]

/-- A word with no row's code is refused by name (R86). -/
theorem decode_of_not_mem {w : Request} (h : opField w ∉ opRows.map Prod.fst) :
    decode w = .error (.unassignedOp (opField w)) := by
  have hf : opRows.find? (fun r => r.1 == opField w) = none := by
    rw [List.find?_eq_none]
    intro r hr he
    exact h (List.mem_map.mpr ⟨r, hr, by simpa using he⟩)
  simp [decode, hf]

/-! ### Operands as bits of the whole word -/

theorem byteOf_extract (w : Request) (lo : Nat) : byteOf (w.extractLsb' lo 16) = w.extractLsb' lo 8 := by
  apply BitVec.eq_of_getLsbD_eq
  intro i hi
  have h : i < 16 := by omega
  simp [byteOf, hi, h]

theorem nibbleOf_extract (w : Request) (lo : Nat) : nibbleOf (w.extractLsb' lo 16) = w.extractLsb' lo 4 := by
  apply BitVec.eq_of_getLsbD_eq
  intro i hi
  have h : i < 16 := by omega
  simp [nibbleOf, hi, h]

end Sys2Proof
end

