-- ==== Sys2Proof/Laws/State.lean ====
section
/-! SUPPORT. One lemma per field per update of State, each true by rfl: no later proof unfolds a record update. -/

namespace Sys2Proof.Machine

variable (s : State)

/-! ### `State.drive` -/

@[simp] theorem State.drive_cfg (evs : List PinEvent) : (s.drive evs).cfg = s.cfg := rfl
@[simp] theorem State.drive_fb (evs : List PinEvent) : (s.drive evs).fb = s.fb := rfl
@[simp] theorem State.drive_scroll (evs : List PinEvent) : (s.drive evs).scroll = s.scroll := rfl
@[simp] theorem State.drive_scrollCfg (evs : List PinEvent) : (s.drive evs).scrollCfg = s.scrollCfg := rfl
@[simp] theorem State.drive_pins (evs : List PinEvent) : (s.drive evs).pins = evs.foldl Pins.apply s.pins := rfl
@[simp] theorem State.drive_busy (evs : List PinEvent) : (s.drive evs).busy = s.busy := rfl
@[simp] theorem State.drive_initDone (evs : List PinEvent) : (s.drive evs).initDone = s.initDone := rfl
@[simp] theorem State.drive_cfgOk (evs : List PinEvent) : (s.drive evs).cfgOk = s.cfgOk := rfl
@[simp] theorem State.drive_req (evs : List PinEvent) : (s.drive evs).req = s.req := rfl
@[simp] theorem State.drive_seq (evs : List PinEvent) : (s.drive evs).seq = s.seq := rfl
@[simp] theorem State.drive_trace (evs : List PinEvent) : (s.drive evs).trace = s.trace := rfl
@[simp] theorem State.drive_pinTrace (evs : List PinEvent) : (s.drive evs).pinTrace = s.pinTrace ++ evs := rfl
@[simp] theorem State.drive_bmp (evs : List PinEvent) : (s.drive evs).bmp = s.bmp := rfl
@[simp] theorem State.drive_port (evs : List PinEvent) : (s.drive evs).port = s.port := rfl
@[simp] theorem State.drive_engine (evs : List PinEvent) : (s.drive evs).engine = s.engine := rfl

/-! ### `State.emit` -/

@[simp] theorem State.emit_cfg (ev : Event) : (s.emit ev).cfg = s.cfg := rfl
@[simp] theorem State.emit_fb (ev : Event) : (s.emit ev).fb = s.fb := rfl
@[simp] theorem State.emit_scroll (ev : Event) : (s.emit ev).scroll = s.scroll := rfl
@[simp] theorem State.emit_scrollCfg (ev : Event) : (s.emit ev).scrollCfg = s.scrollCfg := rfl
@[simp] theorem State.emit_pins (ev : Event) : (s.emit ev).pins = s.pins := rfl
@[simp] theorem State.emit_busy (ev : Event) : (s.emit ev).busy = s.busy := rfl
@[simp] theorem State.emit_initDone (ev : Event) : (s.emit ev).initDone = s.initDone := rfl
@[simp] theorem State.emit_cfgOk (ev : Event) : (s.emit ev).cfgOk = s.cfgOk := rfl
@[simp] theorem State.emit_req (ev : Event) : (s.emit ev).req = s.req := rfl
@[simp] theorem State.emit_seq (ev : Event) : (s.emit ev).seq = s.seq := rfl
@[simp] theorem State.emit_trace (ev : Event) : (s.emit ev).trace = s.trace ++ [ev] := rfl
@[simp] theorem State.emit_pinTrace (ev : Event) : (s.emit ev).pinTrace = s.pinTrace := rfl
@[simp] theorem State.emit_bmp (ev : Event) : (s.emit ev).bmp = s.bmp := rfl
@[simp] theorem State.emit_port (ev : Event) : (s.emit ev).port = s.port := rfl
@[simp] theorem State.emit_engine (ev : Event) : (s.emit ev).engine = s.engine := rfl

/-! ### `State.startCall` -/

@[simp] theorem State.startCall_cfg (k : Nat) (c : Call) : (s.startCall k c).cfg = s.cfg := rfl
@[simp] theorem State.startCall_fb (k : Nat) (c : Call) : (s.startCall k c).fb = s.fb := rfl
@[simp] theorem State.startCall_scroll (k : Nat) (c : Call) : (s.startCall k c).scroll = s.scroll := rfl
@[simp] theorem State.startCall_scrollCfg (k : Nat) (c : Call) : (s.startCall k c).scrollCfg = s.scrollCfg := rfl
@[simp] theorem State.startCall_pins (k : Nat) (c : Call) : (s.startCall k c).pins = (c.opening s.cfg).foldl Pins.apply s.pins := rfl
@[simp] theorem State.startCall_busy (k : Nat) (c : Call) : (s.startCall k c).busy = s.busy := rfl
@[simp] theorem State.startCall_initDone (k : Nat) (c : Call) : (s.startCall k c).initDone = s.initDone := rfl
@[simp] theorem State.startCall_cfgOk (k : Nat) (c : Call) : (s.startCall k c).cfgOk = s.cfgOk := rfl
@[simp] theorem State.startCall_req (k : Nat) (c : Call) : (s.startCall k c).req = s.req := rfl
@[simp] theorem State.startCall_seq (k : Nat) (c : Call) : (s.startCall k c).seq = some { call := k, byteIdx := 0, bitIdx := 7 } := rfl
@[simp] theorem State.startCall_trace (k : Nat) (c : Call) : (s.startCall k c).trace = s.trace := rfl
@[simp] theorem State.startCall_pinTrace (k : Nat) (c : Call) : (s.startCall k c).pinTrace = s.pinTrace ++ c.opening s.cfg := rfl
@[simp] theorem State.startCall_bmp (k : Nat) (c : Call) : (s.startCall k c).bmp = s.bmp := rfl
@[simp] theorem State.startCall_port (k : Nat) (c : Call) : (s.startCall k c).port = s.port := rfl
@[simp] theorem State.startCall_engine (k : Nat) (c : Call) : (s.startCall k c).engine = s.engine := rfl

/-! ### `State.endCall` -/

@[simp] theorem State.endCall_cfg (c : Call) : (s.endCall c).cfg = s.cfg := rfl
@[simp] theorem State.endCall_fb (c : Call) : (s.endCall c).fb = s.fb := rfl
@[simp] theorem State.endCall_scroll (c : Call) : (s.endCall c).scroll = s.scroll := rfl
@[simp] theorem State.endCall_scrollCfg (c : Call) : (s.endCall c).scrollCfg = s.scrollCfg := rfl
@[simp] theorem State.endCall_pins (c : Call) : (s.endCall c).pins = (closing s.cfg).foldl Pins.apply s.pins := rfl
@[simp] theorem State.endCall_busy (c : Call) : (s.endCall c).busy = s.busy := rfl
@[simp] theorem State.endCall_initDone (c : Call) : (s.endCall c).initDone = s.initDone := rfl
@[simp] theorem State.endCall_cfgOk (c : Call) : (s.endCall c).cfgOk = s.cfgOk := rfl
@[simp] theorem State.endCall_req (c : Call) : (s.endCall c).req = s.req := rfl
@[simp] theorem State.endCall_seq (c : Call) : (s.endCall c).seq = s.seq := rfl
@[simp] theorem State.endCall_trace (c : Call) : (s.endCall c).trace = s.trace ++ [c.frame] := rfl
@[simp] theorem State.endCall_pinTrace (c : Call) : (s.endCall c).pinTrace = s.pinTrace ++ closing s.cfg := rfl
@[simp] theorem State.endCall_bmp (c : Call) : (s.endCall c).bmp = s.bmp := rfl
@[simp] theorem State.endCall_port (c : Call) : (s.endCall c).port = s.port := rfl
@[simp] theorem State.endCall_engine (c : Call) : (s.endCall c).engine = s.engine := rfl

/-! ### `State.accept` -/

@[simp] theorem State.accept_cfg (p : Plan) : (s.accept p).cfg = s.cfg := rfl
@[simp] theorem State.accept_fb (p : Plan) : (s.accept p).fb = s.fb := rfl
@[simp] theorem State.accept_scroll (p : Plan) : (s.accept p).scroll = s.scroll := rfl
@[simp] theorem State.accept_scrollCfg (p : Plan) : (s.accept p).scrollCfg = s.scrollCfg := rfl
@[simp] theorem State.accept_pins (p : Plan) : (s.accept p).pins = s.pins := rfl
@[simp] theorem State.accept_busy (p : Plan) : (s.accept p).busy = true := rfl
@[simp] theorem State.accept_initDone (p : Plan) : (s.accept p).initDone = s.initDone := rfl
@[simp] theorem State.accept_cfgOk (p : Plan) : (s.accept p).cfgOk = s.cfgOk := rfl
@[simp] theorem State.accept_req (p : Plan) : (s.accept p).req = s.req := rfl
@[simp] theorem State.accept_seq (p : Plan) : (s.accept p).seq = s.seq := rfl
@[simp] theorem State.accept_trace (p : Plan) : (s.accept p).trace = s.trace ++ (if p.rst then [Event.rst] else []) := rfl
@[simp] theorem State.accept_pinTrace (p : Plan) : (s.accept p).pinTrace = s.pinTrace := rfl
@[simp] theorem State.accept_bmp (p : Plan) : (s.accept p).bmp = s.bmp := rfl
@[simp] theorem State.accept_port (p : Plan) : (s.accept p).port = s.port := rfl
@[simp] theorem State.accept_engine (p : Plan) : (s.accept p).engine = s.engine := rfl

/-! ### `State.updateFb` -/

@[simp] theorem State.updateFb_cfg (f : Mem → Mem) : (s.updateFb f).cfg = s.cfg := rfl
@[simp] theorem State.updateFb_fb (f : Mem → Mem) : (s.updateFb f).fb = f s.fb := rfl
@[simp] theorem State.updateFb_scroll (f : Mem → Mem) : (s.updateFb f).scroll = s.scroll := rfl
@[simp] theorem State.updateFb_scrollCfg (f : Mem → Mem) : (s.updateFb f).scrollCfg = s.scrollCfg := rfl
@[simp] theorem State.updateFb_pins (f : Mem → Mem) : (s.updateFb f).pins = s.pins := rfl
@[simp] theorem State.updateFb_busy (f : Mem → Mem) : (s.updateFb f).busy = s.busy := rfl
@[simp] theorem State.updateFb_initDone (f : Mem → Mem) : (s.updateFb f).initDone = s.initDone := rfl
@[simp] theorem State.updateFb_cfgOk (f : Mem → Mem) : (s.updateFb f).cfgOk = s.cfgOk := rfl
@[simp] theorem State.updateFb_req (f : Mem → Mem) : (s.updateFb f).req = s.req := rfl
@[simp] theorem State.updateFb_seq (f : Mem → Mem) : (s.updateFb f).seq = s.seq := rfl
@[simp] theorem State.updateFb_trace (f : Mem → Mem) : (s.updateFb f).trace = s.trace := rfl
@[simp] theorem State.updateFb_pinTrace (f : Mem → Mem) : (s.updateFb f).pinTrace = s.pinTrace := rfl
@[simp] theorem State.updateFb_bmp (f : Mem → Mem) : (s.updateFb f).bmp = s.bmp := rfl
@[simp] theorem State.updateFb_port (f : Mem → Mem) : (s.updateFb f).port = s.port := rfl
@[simp] theorem State.updateFb_engine (f : Mem → Mem) : (s.updateFb f).engine = s.engine := rfl

/-! ### `State.clearFb` -/

@[simp] theorem State.clearFb_cfg : (s.clearFb).cfg = s.cfg := rfl
@[simp] theorem State.clearFb_fb : (s.clearFb).fb = Mem.fill s.cfg.fbSize 0x00#8 := rfl
@[simp] theorem State.clearFb_scroll : (s.clearFb).scroll = s.scroll := rfl
@[simp] theorem State.clearFb_scrollCfg : (s.clearFb).scrollCfg = s.scrollCfg := rfl
@[simp] theorem State.clearFb_pins : (s.clearFb).pins = s.pins := rfl
@[simp] theorem State.clearFb_busy : (s.clearFb).busy = s.busy := rfl
@[simp] theorem State.clearFb_initDone : (s.clearFb).initDone = s.initDone := rfl
@[simp] theorem State.clearFb_cfgOk : (s.clearFb).cfgOk = s.cfgOk := rfl
@[simp] theorem State.clearFb_req : (s.clearFb).req = s.req := rfl
@[simp] theorem State.clearFb_seq : (s.clearFb).seq = s.seq := rfl
@[simp] theorem State.clearFb_trace : (s.clearFb).trace = s.trace := rfl
@[simp] theorem State.clearFb_pinTrace : (s.clearFb).pinTrace = s.pinTrace := rfl
@[simp] theorem State.clearFb_bmp : (s.clearFb).bmp = s.bmp := rfl
@[simp] theorem State.clearFb_port : (s.clearFb).port = s.port := rfl
@[simp] theorem State.clearFb_engine : (s.clearFb).engine = s.engine := rfl

/-! ### `State.setInitDone` -/

@[simp] theorem State.setInitDone_cfg : (s.setInitDone).cfg = s.cfg := rfl
@[simp] theorem State.setInitDone_fb : (s.setInitDone).fb = s.fb := rfl
@[simp] theorem State.setInitDone_scroll : (s.setInitDone).scroll = s.scroll := rfl
@[simp] theorem State.setInitDone_scrollCfg : (s.setInitDone).scrollCfg = s.scrollCfg := rfl
@[simp] theorem State.setInitDone_pins : (s.setInitDone).pins = s.pins := rfl
@[simp] theorem State.setInitDone_busy : (s.setInitDone).busy = s.busy := rfl
@[simp] theorem State.setInitDone_initDone : (s.setInitDone).initDone = true := rfl
@[simp] theorem State.setInitDone_cfgOk : (s.setInitDone).cfgOk = s.cfgOk := rfl
@[simp] theorem State.setInitDone_req : (s.setInitDone).req = s.req := rfl
@[simp] theorem State.setInitDone_seq : (s.setInitDone).seq = s.seq := rfl
@[simp] theorem State.setInitDone_trace : (s.setInitDone).trace = s.trace := rfl
@[simp] theorem State.setInitDone_pinTrace : (s.setInitDone).pinTrace = s.pinTrace := rfl
@[simp] theorem State.setInitDone_bmp : (s.setInitDone).bmp = s.bmp := rfl
@[simp] theorem State.setInitDone_port : (s.setInitDone).port = s.port := rfl
@[simp] theorem State.setInitDone_engine : (s.setInitDone).engine = s.engine := rfl

/-! ### `State.startScroll` -/

@[simp] theorem State.startScroll_cfg (k : ScrollCfg) : (s.startScroll k).cfg = s.cfg := rfl
@[simp] theorem State.startScroll_fb (k : ScrollCfg) : (s.startScroll k).fb = s.fb := rfl
@[simp] theorem State.startScroll_scroll (k : ScrollCfg) : (s.startScroll k).scroll = .active := rfl
@[simp] theorem State.startScroll_scrollCfg (k : ScrollCfg) : (s.startScroll k).scrollCfg = some k := rfl
@[simp] theorem State.startScroll_pins (k : ScrollCfg) : (s.startScroll k).pins = s.pins := rfl
@[simp] theorem State.startScroll_busy (k : ScrollCfg) : (s.startScroll k).busy = s.busy := rfl
@[simp] theorem State.startScroll_initDone (k : ScrollCfg) : (s.startScroll k).initDone = s.initDone := rfl
@[simp] theorem State.startScroll_cfgOk (k : ScrollCfg) : (s.startScroll k).cfgOk = s.cfgOk := rfl
@[simp] theorem State.startScroll_req (k : ScrollCfg) : (s.startScroll k).req = s.req := rfl
@[simp] theorem State.startScroll_seq (k : ScrollCfg) : (s.startScroll k).seq = s.seq := rfl
@[simp] theorem State.startScroll_trace (k : ScrollCfg) : (s.startScroll k).trace = s.trace := rfl
@[simp] theorem State.startScroll_pinTrace (k : ScrollCfg) : (s.startScroll k).pinTrace = s.pinTrace := rfl
@[simp] theorem State.startScroll_bmp (k : ScrollCfg) : (s.startScroll k).bmp = s.bmp := rfl
@[simp] theorem State.startScroll_port (k : ScrollCfg) : (s.startScroll k).port = s.port := rfl
@[simp] theorem State.startScroll_engine (k : ScrollCfg) : (s.startScroll k).engine = s.engine := rfl

/-! ### `State.stopScroll` -/

@[simp] theorem State.stopScroll_cfg : (s.stopScroll).cfg = s.cfg := rfl
@[simp] theorem State.stopScroll_fb : (s.stopScroll).fb = s.fb := rfl
@[simp] theorem State.stopScroll_scroll : (s.stopScroll).scroll = .inactive := rfl
@[simp] theorem State.stopScroll_scrollCfg : (s.stopScroll).scrollCfg = none := rfl
@[simp] theorem State.stopScroll_pins : (s.stopScroll).pins = s.pins := rfl
@[simp] theorem State.stopScroll_busy : (s.stopScroll).busy = s.busy := rfl
@[simp] theorem State.stopScroll_initDone : (s.stopScroll).initDone = s.initDone := rfl
@[simp] theorem State.stopScroll_cfgOk : (s.stopScroll).cfgOk = s.cfgOk := rfl
@[simp] theorem State.stopScroll_req : (s.stopScroll).req = s.req := rfl
@[simp] theorem State.stopScroll_seq : (s.stopScroll).seq = s.seq := rfl
@[simp] theorem State.stopScroll_trace : (s.stopScroll).trace = s.trace := rfl
@[simp] theorem State.stopScroll_pinTrace : (s.stopScroll).pinTrace = s.pinTrace := rfl
@[simp] theorem State.stopScroll_bmp : (s.stopScroll).bmp = s.bmp := rfl
@[simp] theorem State.stopScroll_port : (s.stopScroll).port = s.port := rfl
@[simp] theorem State.stopScroll_engine : (s.stopScroll).engine = s.engine := rfl

/-! ### `State.latch` -/

@[simp] theorem State.latch_cfg (r : HostReq) (rest : List HostReq) : (s.latch r rest).cfg = s.cfg := rfl
@[simp] theorem State.latch_fb (r : HostReq) (rest : List HostReq) : (s.latch r rest).fb = s.fb := rfl
@[simp] theorem State.latch_scroll (r : HostReq) (rest : List HostReq) : (s.latch r rest).scroll = s.scroll := rfl
@[simp] theorem State.latch_scrollCfg (r : HostReq) (rest : List HostReq) : (s.latch r rest).scrollCfg = s.scrollCfg := rfl
@[simp] theorem State.latch_pins (r : HostReq) (rest : List HostReq) : (s.latch r rest).pins = s.pins := rfl
@[simp] theorem State.latch_busy (r : HostReq) (rest : List HostReq) : (s.latch r rest).busy = s.busy := rfl
@[simp] theorem State.latch_initDone (r : HostReq) (rest : List HostReq) : (s.latch r rest).initDone = s.initDone := rfl
@[simp] theorem State.latch_cfgOk (r : HostReq) (rest : List HostReq) : (s.latch r rest).cfgOk = s.cfgOk := rfl
@[simp] theorem State.latch_req (r : HostReq) (rest : List HostReq) : (s.latch r rest).req = r.word := rfl
@[simp] theorem State.latch_seq (r : HostReq) (rest : List HostReq) : (s.latch r rest).seq = s.seq := rfl
@[simp] theorem State.latch_trace (r : HostReq) (rest : List HostReq) : (s.latch r rest).trace = s.trace := rfl
@[simp] theorem State.latch_pinTrace (r : HostReq) (rest : List HostReq) : (s.latch r rest).pinTrace = s.pinTrace := rfl
@[simp] theorem State.latch_bmp (r : HostReq) (rest : List HostReq) : (s.latch r rest).bmp = s.bmp := rfl
@[simp] theorem State.latch_port (r : HostReq) (rest : List HostReq) : (s.latch r rest).port = rest := rfl
@[simp] theorem State.latch_engine (r : HostReq) (rest : List HostReq) : (s.latch r rest).engine = s.engine := rfl

/-! ### `State.present` -/

@[simp] theorem State.present_cfg (w : Request) : (s.present w).cfg = s.cfg := rfl
@[simp] theorem State.present_fb (w : Request) : (s.present w).fb = s.fb := rfl
@[simp] theorem State.present_scroll (w : Request) : (s.present w).scroll = s.scroll := rfl
@[simp] theorem State.present_scrollCfg (w : Request) : (s.present w).scrollCfg = s.scrollCfg := rfl
@[simp] theorem State.present_pins (w : Request) : (s.present w).pins = s.pins := rfl
@[simp] theorem State.present_busy (w : Request) : (s.present w).busy = false := rfl
@[simp] theorem State.present_initDone (w : Request) : (s.present w).initDone = decide (opField w ≠ 0x1F#8) := rfl
@[simp] theorem State.present_cfgOk (w : Request) : (s.present w).cfgOk = s.cfgOk := rfl
@[simp] theorem State.present_req (w : Request) : (s.present w).req = s.req := rfl
@[simp] theorem State.present_seq (w : Request) : (s.present w).seq = none := rfl
@[simp] theorem State.present_trace (w : Request) : (s.present w).trace = s.trace := rfl
@[simp] theorem State.present_pinTrace (w : Request) : (s.present w).pinTrace = s.pinTrace := rfl
@[simp] theorem State.present_bmp (w : Request) : (s.present w).bmp = s.bmp := rfl
@[simp] theorem State.present_port (w : Request) : (s.present w).port = { word := w, waits := true } :: s.port := rfl
@[simp] theorem State.present_engine (w : Request) : (s.present w).engine = s.engine := rfl

/-! ### `State.afterCalls` -/

@[simp] theorem State.afterCalls_cfg (calls : List Call) : (s.afterCalls calls).cfg = s.cfg := rfl
@[simp] theorem State.afterCalls_fb (calls : List Call) : (s.afterCalls calls).fb = s.fb := rfl
@[simp] theorem State.afterCalls_scroll (calls : List Call) : (s.afterCalls calls).scroll = s.scroll := rfl
@[simp] theorem State.afterCalls_scrollCfg (calls : List Call) : (s.afterCalls calls).scrollCfg = s.scrollCfg := rfl
@[simp] theorem State.afterCalls_pins (calls : List Call) : (s.afterCalls calls).pins = (calls.flatMap (Call.events s.cfg)).foldl Pins.apply s.pins := rfl
@[simp] theorem State.afterCalls_busy (calls : List Call) : (s.afterCalls calls).busy = false := rfl
@[simp] theorem State.afterCalls_initDone (calls : List Call) : (s.afterCalls calls).initDone = s.initDone := rfl
@[simp] theorem State.afterCalls_cfgOk (calls : List Call) : (s.afterCalls calls).cfgOk = s.cfgOk := rfl
@[simp] theorem State.afterCalls_req (calls : List Call) : (s.afterCalls calls).req = s.req := rfl
@[simp] theorem State.afterCalls_seq (calls : List Call) : (s.afterCalls calls).seq = none := rfl
@[simp] theorem State.afterCalls_trace (calls : List Call) : (s.afterCalls calls).trace = s.trace ++ calls.map Call.frame := rfl
@[simp] theorem State.afterCalls_pinTrace (calls : List Call) : (s.afterCalls calls).pinTrace = s.pinTrace ++ calls.flatMap (Call.events s.cfg) := rfl
@[simp] theorem State.afterCalls_bmp (calls : List Call) : (s.afterCalls calls).bmp = s.bmp := rfl
@[simp] theorem State.afterCalls_port (calls : List Call) : (s.afterCalls calls).port = s.port := rfl

end Sys2Proof.Machine
end

