-- ==== Sys2Proof/Laws/Run.lean ====
section
/-! SUPPORT. What running an operation can do: it completes with all calls sent when every transfer returns, or it is left
inside one call, waiting for the engine; and what no run changes. -/

namespace Sys2Proof.Machine

/-! ### The engine -/

/-- In mode BITBANG a transfer has always returned, and nothing changes. -/
theorem State.pollTransfer_bitbang {s : State} (h : s.cfg.busMode = .bitbang) : s.pollTransfer = (true, s) := by
  simp [State.pollTransfer, h]

theorem State.pollTransfer_hw {s : State} (h : s.cfg.busMode = .hw) :
    s.pollTransfer = (s.engine.poll.1, { s with engine := s.engine.poll.2 }) := by
  simp [State.pollTransfer, h]

/-- Polling changes the engine's answers at most. -/
theorem State.pollTransfer_snd (s : State) : ∃ e, s.pollTransfer.2 = { s with engine := e } := by
  cases h : s.cfg.busMode with
  | hw => exact ⟨_, by rw [State.pollTransfer_hw h]⟩
  | bitbang => exact ⟨s.engine, by rw [State.pollTransfer_bitbang h]⟩

/-- A transfer that has not returned is an engine's: mode HW. -/
theorem State.pollTransfer_false {s s' : State} (h : s.pollTransfer = (false, s')) :
    s.cfg.busMode = .hw ∧ s' = { s with engine := s.engine.poll.2 } := by
  cases hb : s.cfg.busMode with
  | hw => rw [State.pollTransfer_hw hb] at h; exact ⟨rfl, (congrArg Prod.snd h).symm⟩
  | bitbang => rw [State.pollTransfer_bitbang hb] at h; simp at h

/-- The engine's answers once `n` transfers have returned. -/
def Engine.after (e : Engine) (n : Nat) : Engine := { e with script := e.script.drop n }

theorem Engine.poll_returns {e : Engine} (hs : e.script.all id = true) (ht : e.tail = true) :
    e.poll = (true, e.after 1) := by
  cases e with
  | mk script tail =>
    cases script with
    | nil => simp_all [Engine.poll, Engine.after]
    | cons b r => simp_all [Engine.poll, Engine.after]

/-! ### What a run leaves unchanged -/

/-- `t` differs from `s` at most in what transport calls touch: the pins but RST, the traces, SEQ and the engine's answers. -/
structure State.SameCore (s t : State) : Prop where
  cfg : t.cfg = s.cfg
  fb : t.fb = s.fb
  scroll : t.scroll = s.scroll
  scrollCfg : t.scrollCfg = s.scrollCfg
  rst : t.pins.rst = s.pins.rst
  busy : t.busy = s.busy
  initDone : t.initDone = s.initDone
  cfgOk : t.cfgOk = s.cfgOk
  req : t.req = s.req
  bmp : t.bmp = s.bmp
  port : t.port = s.port

theorem State.SameCore.refl (s : State) : s.SameCore s := ⟨rfl, rfl, rfl, rfl, rfl, rfl, rfl, rfl, rfl, rfl, rfl⟩

theorem State.SameCore.trans {s t u : State} (h : s.SameCore t) (h' : t.SameCore u) : s.SameCore u :=
  ⟨h'.cfg.trans h.cfg, h'.fb.trans h.fb, h'.scroll.trans h.scroll, h'.scrollCfg.trans h.scrollCfg, h'.rst.trans h.rst,
    h'.busy.trans h.busy, h'.initDone.trans h.initDone, h'.cfgOk.trans h.cfgOk, h'.req.trans h.req, h'.bmp.trans h.bmp,
    h'.port.trans h.port⟩

@[simp] theorem Pins.apply_rst (p : Pins) (ev : PinEvent) : (p.apply ev).rst = p.rst := by
  cases ev with
  | pin sig l => cases sig <;> rfl
  | hw bs => rfl

@[simp] theorem Pins.foldl_apply_rst (evs : List PinEvent) : ∀ p : Pins, (evs.foldl Pins.apply p).rst = p.rst := by
  induction evs with
  | nil => intro p; rfl
  | cons e es ih => intro p; simp [ih]

theorem State.startCall_same (s : State) (k : Nat) (c : Call) : s.SameCore (s.startCall k c) :=
  ⟨rfl, rfl, rfl, rfl, by simp, rfl, rfl, rfl, rfl, rfl, rfl⟩

theorem State.endCall_same (s : State) (c : Call) : s.SameCore (s.endCall c) :=
  ⟨rfl, rfl, rfl, rfl, by simp, rfl, rfl, rfl, rfl, rfl, rfl⟩

theorem State.pollTransfer_same (s : State) : s.SameCore s.pollTransfer.2 := by
  obtain ⟨e, he⟩ := s.pollTransfer_snd
  rw [he]
  exact ⟨rfl, rfl, rfl, rfl, rfl, rfl, rfl, rfl, rfl, rfl, rfl⟩

/-- Transport calls change nothing but the pins, the traces, SEQ and the engine's answers. -/
theorem runCalls_same : ∀ (cs : List Call) (k : Nat) (s : State), s.SameCore (runCalls k cs s).2
  | [], _, s => State.SameCore.refl s
  | c :: rest, k, s => by
    simp only [runCalls]
    have h := (State.startCall_same s k c).trans (State.pollTransfer_same (s.startCall k c))
    split
    · rename_i s' hp
      rw [hp] at h
      exact (h.trans (State.endCall_same s' c)).trans (runCalls_same rest (k + 1) (s'.endCall c))
    · rename_i s' hp
      rw [hp] at h
      exact h

/-! ### Completion -/

/-- The state after `calls` have been sent one after another, SEQ as the last call left it. -/
def sendAll : Nat → List Call → State → State
  | _, [], s => s
  | k, c :: rest, s =>
    sendAll (k + 1) rest
      (State.endCall { s.startCall k c with
        engine := match s.cfg.busMode with
          | .bitbang => s.engine
          | .hw => s.engine.after 1 } c)

theorem State.EngineReturns.of_sameCfg {s t : State} (h : s.EngineReturns) (hc : t.cfg = s.cfg)
    (he : t.engine = s.engine ∨ t.engine = s.engine.after 1) : t.EngineReturns := by
  unfold State.EngineReturns at *
  rw [hc]
  rcases h with h | ⟨h1, h2⟩
  · exact Or.inl h
  · right
    rcases he with he | he
    · rw [he]; exact ⟨h1, h2⟩
    · rw [he]
      refine ⟨?_, h2⟩
      simp only [Engine.after, List.all_eq_true] at *
      intro x hx
      exact h1 x (List.mem_of_mem_drop hx)

theorem runCalls_completes : ∀ (cs : List Call) (k : Nat) (s : State), s.EngineReturns →
    runCalls k cs s = (true, sendAll k cs s)
  | [], _, _, _ => rfl
  | c :: rest, k, s, h => by
    have hpoll : (s.startCall k c).pollTransfer
        = (true, { s.startCall k c with
            engine := match s.cfg.busMode with
              | .bitbang => s.engine
              | .hw => s.engine.after 1 }) := by
      cases hb : s.cfg.busMode with
      | bitbang => rw [State.pollTransfer_bitbang (by simpa using hb)]; rfl
      | hw =>
        rw [State.pollTransfer_hw (by simpa using hb)]
        rcases h with h | ⟨h1, h2⟩
        · rw [hb] at h; cases h
        · simp only [State.startCall_engine, Engine.poll_returns h1 h2]
    simp only [runCalls, hpoll, sendAll]
    refine runCalls_completes rest (k + 1) _ (h.of_sameCfg rfl ?_)
    simp only [State.endCall_engine]
    cases s.cfg.busMode
    · exact Or.inr rfl
    · exact Or.inl rfl

/-- All calls sent, then BUSY false and SEQ idle: the pins, the traces and the engine as `State.afterCalls` says. -/
theorem sendAll_eq : ∀ (cs : List Call) (k : Nat) (s : State),
    { sendAll k cs s with busy := false, seq := none } = s.afterCalls cs
  | [], _, s => by
    simp only [sendAll, State.afterCalls, List.flatMap_nil, List.foldl_nil, List.append_nil, List.map_nil,
      List.length_nil, List.drop_zero]
    congr 1
    cases s.cfg.busMode <;> rfl
  | c :: rest, k, s => by
    rw [sendAll, sendAll_eq rest (k + 1)]
    simp only [State.afterCalls, State.endCall, State.startCall, State.drive, State.emit, List.flatMap_cons,
      Call.events, List.foldl_append, List.append_assoc, List.map_cons, List.length_cons, List.singleton_append]
    congr 1
    cases s.cfg.busMode
    · simp [Engine.after]
    · rfl

/-- The rest of an operation when every transfer returns: its effect on the state after the remaining calls. -/
theorem continueWith_completes (p : Plan) (k : Nat) (cs : List Call) (s : State) (h : s.EngineReturns) :
    continueWith p k cs s = p.finish (s.afterCalls cs) := by
  simp only [continueWith, runCalls_completes _ _ _ h, State.complete, sendAll_eq]

/-- What an admitted operation does when every transfer returns: its effect on the state after all its calls. -/
theorem perform_completes (p : Plan) (s : State) (h : s.EngineReturns) :
    perform p s = p.finish ((s.accept p).afterCalls p.calls) :=
  continueWith_completes p 0 p.calls (s.accept p) h

/-- An operation without transport calls completes at once. -/
theorem perform_noCalls (p : Plan) (s : State) (h : p.calls = []) :
    perform p s = p.finish { s.accept p with busy := false, seq := none } := by
  simp [perform, continueWith, h, runCalls, State.complete]

/-- What a run of calls leaves when it does not complete: mode HW, and one of the calls under way. -/
theorem runCalls_waits : ∀ (cs : List Call) (k : Nat) (s s' : State), runCalls k cs s = (false, s') →
    s.cfg.busMode = .hw ∧ ∃ j c, cs[j]? = some c ∧ s'.seq = some { call := k + j, byteIdx := 0, bitIdx := 7 }
      ∧ ∃ u : State, s.SameCore u ∧ u.trace = s.trace ++ (cs.take j).map Call.frame
        ∧ u.pinTrace = s.pinTrace ++ (cs.take j).flatMap (Call.events s.cfg)
        ∧ u.pins = ((cs.take j).flatMap (Call.events s.cfg)).foldl Pins.apply s.pins
        ∧ ∃ e, s' = { u.startCall (k + j) c with engine := e }
  | [], _, _, _, h => by simp [runCalls] at h
  | c :: rest, k, s, s', h => by
    simp only [runCalls] at h
    split at h
    · rename_i s1 hp
      have hsame := (State.startCall_same s k c).trans (State.pollTransfer_same (s.startCall k c))
      obtain ⟨e1, he1⟩ := (s.startCall k c).pollTransfer_snd
      rw [hp] at hsame he1
      have hsame2 := hsame.trans (State.endCall_same s1 c)
      obtain ⟨hhw, j, c', hj, hseq, u, hu, htr, hpt, hpins, e, hs'⟩ := runCalls_waits rest (k + 1) _ _ h
      rw [hsame2.cfg] at hhw hpt hpins
      refine ⟨hhw, j + 1, c', by simpa using hj, by rw [hseq]; congr 2; omega, u, hsame2.trans hu, ?_, ?_, ?_, e, ?_⟩
      · rw [htr]
        simp only at he1
        simp [he1, List.append_assoc]
      · rw [hpt]
        simp only at he1
        simp [he1, Call.events, List.append_assoc]
      · rw [hpins]
        simp only at he1
        simp [he1, Call.events, List.foldl_append]
      · rw [hs']
        have : k + 1 + j = k + (j + 1) := by omega
        rw [this]
    · rename_i s1 hp
      obtain ⟨hhw, he⟩ := State.pollTransfer_false hp
      cases h
      refine ⟨by simpa using hhw, 0, c, rfl, ?_, s, State.SameCore.refl s, by simp, by simp, by simp, ?_⟩
      · simp [he]
      · exact ⟨(s.startCall k c).engine.poll.2, by simpa using he⟩

end Sys2Proof.Machine
end

