-- ==== Sys2Proof/Laws/Exec.lean ====
section
/-! SUPPORT. What `exec` can do: refuse, fault on an odd width, or perform the operation's plan. -/

namespace Sys2Proof.Machine

theorem admission_afterBegin {s : State} : admission .afterBegin s = none ↔ s.Ready := by
  cases hb : s.busy <;> cases hc : s.cfgOk <;> cases hi : s.initDone <;> simp [admission, hb, hc, hi, State.Ready]

theorem admission_beforeBegin {s : State} : admission .beforeBegin s = none ↔ s.ReadyForBegin := by
  cases hb : s.busy <;> cases hc : s.cfgOk <;> cases hi : s.initDone <;> simp [admission, hb, hc, hi, State.ReadyForBegin]

/-- An operation that is admitted is performed. -/
theorem runOp_next {g : Gate} {p : Plan} {s t : State} :
    runOp g p s = .next t ↔ admission g s = none ∧ t = perform p s := by
  unfold runOp
  cases admission g s <;> simp [eq_comm]

theorem runPixelOp_next {p : Plan} {s t : State} :
    runPixelOp p s = .next t ↔ admission .afterBegin s = none ∧ s.cfg.w % 2 = 0 ∧ t = perform p s := by
  unfold runPixelOp
  cases admission .afterBegin s with
  | some r => simp
  | none => by_cases hw : s.cfg.w % 2 = 0 <;> simp [hw, eq_comm]

/-- Every operation answers a next state only by performing its plan, admitted. -/
theorem exec_next {i : Instr} {s t : State} (h : exec i s = .next t) :
    admission (gateOf i) s = none ∧ t = perform (planOf i s) s := by
  cases i <;> simp only [exec, execSendcmd, execSenddata, execPwron, execPwroff, execSetwin, execSetcontrast, execSetremap,
    execSelgray, execCfgscroll, execScrollon, execScrolloff, execSetstartline, execBegin, execSetpixel, execVline,
    execHline, execBitmap, execFill, execClear, execDisplay, execStartscrollright, execStartscrollleft,
    execStartscrolldiagright, execStartscrolldiagleft, execStopscroll, execInvertdisplay, execDim] at h
  case bitmap x y src w hh color =>
    cases ha : admission .afterBegin s with
    | some r => simp [ha] at h
    | none =>
      simp only [ha] at h
      split at h
      · cases h
      · exact ⟨ha, (runPixelOp_next.mp h).2.2⟩
  case setpixel | vline | hline =>
    exact ⟨(runPixelOp_next.mp h).1, (runPixelOp_next.mp h).2.2⟩
  all_goals exact runOp_next.mp h

/-- The pixel operations run only on an even width. -/
theorem exec_next_width {i : Instr} {s t : State} (h : exec i s = .next t) :
    (∃ x y c, i = .setpixel x y c) ∨ (∃ x y l c, i = .vline x y l c) ∨ (∃ x y l c, i = .hline x y l c)
      ∨ (∃ x y src w hh c, i = .bitmap x y src w hh c) → s.cfg.w % 2 = 0 := by
  rintro (⟨x, y, c, rfl⟩ | ⟨x, y, l, c, rfl⟩ | ⟨x, y, l, c, rfl⟩ | ⟨x, y, src, w, hh, c, rfl⟩)
  · exact (runPixelOp_next.mp h).2.1
  · exact (runPixelOp_next.mp h).2.1
  · exact (runPixelOp_next.mp h).2.1
  · simp only [exec, execBitmap] at h
    cases ha : admission .afterBegin s with
    | some r => simp [ha] at h
    | none =>
      simp only [ha] at h
      split at h
      · cases h
      · exact (runPixelOp_next.mp h).2.1

/-- An admitted operation that only sends completes when every transfer returns. -/
theorem runOp_sendPlan {g : Gate} {calls : List Call} {s : State} (ha : admission g s = none) (he : s.EngineReturns) :
    runOp g (sendPlan calls) s = .next (s.afterCalls calls) := by
  rw [runOp_next]
  refine ⟨ha, ?_⟩
  rw [perform_completes _ _ he]
  simp [sendPlan, State.accept, State.afterCalls]

/-- What `State.afterCalls` is, as `State.SentOnly`. -/
theorem State.afterCalls_sentOnly (s : State) (calls : List Call) :
    s.SentOnly (s.afterCalls calls) (calls.map Call.frame) :=
  ⟨rfl, rfl, rfl, rfl, rfl, by simp, rfl, rfl, rfl, rfl, rfl, rfl, rfl⟩

/-- The calls of `cmd` are the frames of R140. -/
@[simp] theorem cmd_frames (c : Byte) (ps : List Byte) : (cmd c ps).map Call.frame = cmdFrames c ps := by
  simp [cmd, cmdFrames, evC, evD, Call.frame, sendcmd, senddata, Function.comp_def]

@[simp] theorem cmds_frames (cs : List Command) : (cmds cs).map Call.frame = commandFrames cs := by
  simp [cmds, commandFrames, List.map_flatMap]

/-! ### Drawing -/

/-- An operation that only changes FB completes at once, whatever the engine does. -/
theorem perform_drawPlan (f : Mem → Mem) (s : State) :
    perform (drawPlan f) s = { s with fb := f s.fb, busy := false, seq := none } := by
  rw [perform_noCalls _ _ rfl]
  simp [drawPlan, State.updateFb, State.accept]

/-! ### A step -/

/-- A step of an idle block runs the request at the head of the port. -/
theorem step_accept {s : State} {r : HostReq} {rest : List HostReq} {i : Instr} (hb : s.busy = false)
    (hp : s.port = r :: rest) (hd : decode r.word = .ok i) : step s = exec i (s.latch r rest) := by
  simp [step, hb, hp, hd]

/-- What a step that answers a next state did: waited idle, ran a request, or let the engine answer. -/
theorem step_next {s t : State} (h : step s = .next t) :
    (s.busy = false ∧ s.port = [] ∧ t = s)
      ∨ (s.busy = false ∧ ∃ r rest i, s.port = r :: rest ∧ decode r.word = .ok i ∧ exec i (s.latch r rest) = .next t)
      ∨ (s.busy = true ∧ s.impatient = false ∧ ∃ p k c, s.running = some (p, k, c)
          ∧ ((∃ s', s.pollTransfer = (false, s') ∧ t = s')
            ∨ ∃ s', s.pollTransfer = (true, s')
              ∧ t = continueWith p (k + 1) (p.calls.drop (k + 1)) (s'.endCall c))) := by
  unfold step at h
  cases hb : s.busy with
  | false =>
    simp only [hb] at h
    cases hp : s.port with
    | nil => simp [hp] at h; exact Or.inl ⟨rfl, rfl, h.symm⟩
    | cons r rest =>
      cases hd : decode r.word with
      | error e => cases e; simp [hp, hd] at h
      | ok i =>
        simp [hp, hd] at h
        exact Or.inr (Or.inl ⟨rfl, r, rest, i, rfl, hd, h⟩)
  | true =>
    simp only [hb, if_true] at h
    cases hi : s.impatient with
    | true => simp [hi] at h
    | false =>
      simp only [hi, Bool.false_eq_true, if_false, engineStep] at h
      cases hr : s.running with
      | none => simp [hr] at h
      | some q =>
        obtain ⟨p, k, c⟩ := q
        simp only [hr] at h
        refine Or.inr (Or.inr ⟨rfl, rfl, p, k, c, rfl, ?_⟩)
        split at h
        · rename_i s' hpt
          exact Or.inl ⟨s', hpt, by simpa using h.symm⟩
        · rename_i s' hpt
          exact Or.inr ⟨s', hpt, by simpa using h.symm⟩

end Sys2Proof.Machine
end

