-- ==== Sys2Proof/Laws/Memory.lean ====
section
/-! SUPPORT. The byte memory: a read after a write, and every operation keeps the canonical form and the memory's extent. -/

namespace Sys2Proof.Machine

@[simp] theorem Mem.read_nil (a : Nat) : Mem.read [] a = unlisted := rfl

@[simp] theorem Mem.wf_nil : Mem.wf [] = true := rfl

@[simp] theorem Mem.within_nil (n : Nat) : Mem.within [] n = true := rfl

@[simp] theorem Mem.wfFrom_cons (lo k : Nat) (v : Byte) (m : Mem) :
    Mem.wfFrom lo ((k, v) :: m) = true ↔ lo ≤ k ∧ v ≠ unlisted ∧ Mem.wfFrom (k + 1) m = true := by
  simp [Mem.wfFrom, and_assoc]

theorem Mem.wfFrom_mono {lo lo' : Nat} (h : lo' ≤ lo) : ∀ {m : Mem}, Mem.wfFrom lo m = true → Mem.wfFrom lo' m = true
  | [], _ => rfl
  | (k, v) :: rest, hm => by
    simp only [Mem.wfFrom_cons] at hm ⊢
    exact ⟨by omega, hm.2⟩

/-- Below the canonical part nothing is listed. -/
theorem Mem.read_below {lo a : Nat} (h : a < lo) : ∀ {m : Mem}, Mem.wfFrom lo m = true → m.read a = unlisted
  | [], _ => rfl
  | (k, v) :: rest, hm => by
    simp only [Mem.wfFrom_cons] at hm
    have hk : k ≠ a := by omega
    simpa [Mem.read, hk] using Mem.read_below (lo := k + 1) (by omega) hm.2.2

theorem Mem.write_wfFrom {lo a : Nat} (v : Byte) (h : lo ≤ a) :
    ∀ {m : Mem}, Mem.wfFrom lo m = true → Mem.wfFrom lo (m.write a v) = true
  | [], _ => by
    simp only [Mem.write]
    split <;> simp_all [Mem.wfFrom]
  | (k, w) :: rest, hm => by
    simp only [Mem.wfFrom_cons] at hm
    simp only [Mem.write]
    split
    · rename_i hka
      simp only [Mem.wfFrom_cons]
      exact ⟨hm.1, hm.2.1, Mem.write_wfFrom v (by omega) hm.2.2⟩
    · split
      · rename_i hka
        subst hka
        split
        · exact Mem.wfFrom_mono (by omega) hm.2.2
        · rename_i hv
          simp only [Mem.wfFrom_cons]
          exact ⟨h, hv, hm.2.2⟩
      · split
        · simp only [Mem.wfFrom_cons]; exact hm
        · rename_i h1 h2 hv
          simp only [Mem.wfFrom_cons]
          exact ⟨h, hv, by omega, hm.2⟩

/-- A write keeps the canonical form. -/
theorem Mem.write_wf {m : Mem} (a : Nat) (v : Byte) (h : m.wf = true) : (m.write a v).wf = true :=
  Mem.write_wfFrom v (Nat.zero_le a) h

/-- A read after a write to the same address gives the value written. -/
theorem Mem.read_write_same {lo a : Nat} (v : Byte) (h : lo ≤ a) :
    ∀ {m : Mem}, Mem.wfFrom lo m = true → (m.write a v).read a = v
  | [], _ => by
    simp only [Mem.write]
    split <;> simp_all [Mem.read]
  | (k, w) :: rest, hm => by
    simp only [Mem.wfFrom_cons] at hm
    simp only [Mem.write]
    split
    · rename_i hka
      have hne : k ≠ a := by omega
      simpa [Mem.read, hne] using Mem.read_write_same v (by omega) hm.2.2
    · split
      · rename_i hka
        subst hka
        split
        · rename_i hv
          rw [hv]
          exact Mem.read_below (by omega) hm.2.2
        · simp [Mem.read]
      · rename_i h1 h2
        split
        · rename_i hv
          rw [hv]
          exact Mem.read_below (lo := k) (by omega) (by simpa using hm.2)
        · simp [Mem.read]

/-- A write leaves every other address alone. -/
theorem Mem.read_write_other {a b : Nat} (v : Byte) (hab : b ≠ a) :
    ∀ {lo : Nat} {m : Mem}, Mem.wfFrom lo m = true → (m.write a v).read b = m.read b
  | _, [], _ => by
    simp only [Mem.write]
    split <;> simp [Mem.read, hab.symm]
  | _, (k, w) :: rest, hm => by
    simp only [Mem.wfFrom_cons] at hm
    simp only [Mem.write]
    split
    · simp only [Mem.read]
      split
      · rfl
      · exact Mem.read_write_other v hab hm.2.2
    · split
      · rename_i hka
        subst hka
        split
        · simp [Mem.read, hab.symm]
        · simp [Mem.read, hab.symm]
      · split
        · rfl
        · simp [Mem.read, hab.symm]

/-- What a read after a write gives, on a canonical memory. -/
theorem Mem.read_write {m : Mem} (a b : Nat) (v : Byte) (h : m.wf = true) :
    (m.write a v).read b = if b = a then v else m.read b := by
  split
  · rename_i hab
    subst hab
    exact Mem.read_write_same v (Nat.zero_le _) h
  · rename_i hab
    exact Mem.read_write_other v hab h

theorem Mem.within_cons (k : Nat) (v : Byte) (m : Mem) (n : Nat) :
    Mem.within ((k, v) :: m) n = true ↔ k < n ∧ m.within n = true := by simp [Mem.within]

/-- A write inside the memory lists only cells that exist. -/
theorem Mem.write_within {a n : Nat} (v : Byte) (ha : a < n) :
    ∀ {m : Mem}, m.within n = true → (m.write a v).within n = true
  | [], _ => by
    simp only [Mem.write]
    split <;> simp [Mem.within, ha]
  | (k, w) :: rest, hm => by
    rw [Mem.within_cons] at hm
    simp only [Mem.write]
    split
    · rw [Mem.within_cons]
      exact ⟨hm.1, Mem.write_within v ha hm.2⟩
    · split
      · split
        · exact hm.2
        · rw [Mem.within_cons]; exact ⟨ha, hm.2⟩
      · split
        · rw [Mem.within_cons]; exact hm
        · rw [Mem.within_cons, Mem.within_cons]; exact ⟨ha, hm⟩

/-! ### Filling a memory -/

theorem Mem.wfFrom_map_range' (v : Byte) (hv : v ≠ unlisted) :
    ∀ (n lo : Nat), Mem.wfFrom lo ((List.range' lo n).map (fun i => (i, v))) = true
  | 0, _ => rfl
  | n + 1, lo => by
    simp only [List.range'_succ, List.map_cons, Mem.wfFrom_cons]
    exact ⟨Nat.le_refl _, hv, Mem.wfFrom_map_range' v hv n (lo + 1)⟩

/-- A filled memory is canonical. -/
theorem Mem.fill_wf (n : Nat) (v : Byte) : (Mem.fill n v).wf = true := by
  unfold Mem.fill
  split
  · rfl
  · rename_i hv
    rw [List.range_eq_range']
    exact Mem.wfFrom_map_range' v hv n 0

/-- A filled memory lists only cells that exist. -/
theorem Mem.fill_within (n : Nat) (v : Byte) : (Mem.fill n v).within n = true := by
  unfold Mem.fill
  split
  · rfl
  · simp [Mem.within]

theorem Mem.read_map_range' (v : Byte) : ∀ (n lo a : Nat),
    Mem.read ((List.range' lo n).map (fun i => (i, v))) a = if lo ≤ a ∧ a < lo + n then v else unlisted
  | 0, lo, a => by
    simp
  | n + 1, lo, a => by
    simp only [List.range'_succ, List.map_cons, Mem.read]
    split
    · rename_i h
      rw [if_pos (by omega)]
    · rename_i h
      rw [Mem.read_map_range' v n (lo + 1) a]
      have : (lo + 1 ≤ a ∧ a < lo + 1 + n) ↔ (lo ≤ a ∧ a < lo + (n + 1)) := by omega
      simp only [this]

/-- Every byte of a filled memory of `n` bytes reads as the fill value. -/
theorem Mem.read_fill (n : Nat) (v : Byte) (a : Nat) : (Mem.fill n v).read a = if a < n then v else unlisted := by
  unfold Mem.fill
  split
  · rename_i hv
    subst hv
    simp
  · rw [List.range_eq_range', Mem.read_map_range' v n 0 a]
    simp

/-- Two canonical memories that read the same everywhere are the same. -/
theorem Mem.ext_from : ∀ {lo : Nat} {m m' : Mem}, Mem.wfFrom lo m = true → Mem.wfFrom lo m' = true →
    (∀ a, m.read a = m'.read a) → m = m'
  | _, [], [], _, _, _ => rfl
  | _, [], (k, v) :: r, _, h', he => by
    have := he k
    simp only [Mem.wfFrom_cons] at h'
    simp [Mem.read] at this
    exact absurd this.symm h'.2.1
  | _, (k, v) :: r, [], h, _, he => by
    have := he k
    simp only [Mem.wfFrom_cons] at h
    simp [Mem.read] at this
    exact absurd this h.2.1
  | lo, (k, v) :: r, (k', v') :: r', h, h', he => by
    have hc := h
    have hc' := h'
    simp only [Mem.wfFrom_cons] at h h'
    have hk : k = k' := by
      rcases Nat.lt_trichotomy k k' with hlt | heq | hgt
      · have h1 := he k
        rw [Mem.read_below (lo := k') hlt (m := (k', v') :: r') (by simpa using h'.2)] at h1
        simp [Mem.read] at h1
        exact absurd h1 h.2.1
      · exact heq
      · have h1 := he k'
        rw [Mem.read_below (lo := k) hgt (m := (k, v) :: r) (by simpa using h.2)] at h1
        simp [Mem.read] at h1
        exact absurd h1.symm h'.2.1
    subst hk
    have hv : v = v' := by simpa [Mem.read] using he k
    subst hv
    have hr : r = r' := by
      refine Mem.ext_from h.2.2 h'.2.2 (fun a => ?_)
      by_cases hka : k = a
      · subst hka
        rw [Mem.read_below (Nat.lt_succ_self k) h.2.2, Mem.read_below (Nat.lt_succ_self k) h'.2.2]
      · simpa [Mem.read, hka] using he a
    rw [hr]

/-- Two canonical memories that read the same everywhere are the same. -/
theorem Mem.ext_read {m m' : Mem} (h : m.wf = true) (h' : m'.wf = true) (he : ∀ a, m.read a = m'.read a) : m = m' :=
  Mem.ext_from h h' he

end Sys2Proof.Machine
end

