-- ==== Sys2Proof/Laws/PerInstr.lean ====
section
/-! SUPPORT. Statements about every instruction as syntax, one lemma per constructor. OpField: the operation field of an
instruction's canonical word is its code of spec 30_encoding.md R84. -/

namespace Sys2Proof.Laws.OpField

/-- The operation field of the canonical word is the instruction's operation code (R80, R84). -/
def Statement (i : Instr) : Prop := opField (encode i) = i.opcode

theorem sendcmd : ∀ b, Statement (.sendcmd b) := by
  intros; exact opField_requestOf ..
theorem senddata : ∀ b, Statement (.senddata b) := by
  intros; exact opField_requestOf ..
theorem pwron : Statement .pwron := opField_requestOf ..
theorem pwroff : Statement .pwroff := opField_requestOf ..
theorem setwin : ∀ cs ce rs re, Statement (.setwin cs ce rs re) := by
  intros; exact opField_requestOf ..
theorem setcontrast : ∀ b, Statement (.setcontrast b) := by
  intros; exact opField_requestOf ..
theorem setremap : ∀ p0 p1, Statement (.setremap p0 p1) := by
  intros; exact opField_requestOf ..
theorem selgray : Statement .selgray := opField_requestOf ..
theorem cfgscroll : ∀ start stop left diagonal, Statement (.cfgscroll start stop left diagonal) := by
  intros; exact opField_requestOf ..
theorem scrollon : Statement .scrollon := opField_requestOf ..
theorem scrolloff : Statement .scrolloff := opField_requestOf ..
theorem setstartline : ∀ b, Statement (.setstartline b) := by
  intros; exact opField_requestOf ..
theorem beginInit : Statement .beginInit := opField_requestOf ..
theorem setpixel : ∀ x y c, Statement (.setpixel x y c) := by
  intros; exact opField_requestOf ..
theorem vline : ∀ x y len c, Statement (.vline x y len c) := by
  intros; exact opField_requestOf ..
theorem hline : ∀ x y len c, Statement (.hline x y len c) := by
  intros; exact opField_requestOf ..
theorem bitmap : ∀ x y src w h c, Statement (.bitmap x y src w h c) := by
  intros; exact opField_requestOf ..
theorem fill : ∀ level, Statement (.fill level) := by
  intros; exact opField_requestOf ..
theorem clear : Statement .clear := opField_requestOf ..
theorem display : ∀ f, Statement (.display f) := by
  intros; exact opField_requestOf ..
theorem startscrollright : ∀ start stop, Statement (.startscrollright start stop) := by
  intros; exact opField_requestOf ..
theorem startscrollleft : ∀ start stop, Statement (.startscrollleft start stop) := by
  intros; exact opField_requestOf ..
theorem startscrolldiagright : ∀ start stop, Statement (.startscrolldiagright start stop) := by
  intros; exact opField_requestOf ..
theorem startscrolldiagleft : ∀ start stop, Statement (.startscrolldiagleft start stop) := by
  intros; exact opField_requestOf ..
theorem stopscroll : Statement .stopscroll := opField_requestOf ..
theorem invertdisplay : ∀ f, Statement (.invertdisplay f) := by
  intros; exact opField_requestOf ..
theorem dim : ∀ f, Statement (.dim f) := by
  intros; exact opField_requestOf ..

end Sys2Proof.Laws.OpField
end

