-- ==== Sys2Proof/Laws/Pixels.lean ====
section
/-! SUPPORT. The pixel layer: the packer, the range of the indexer, and what setting pixels does to the framebuffer. -/

namespace Sys2Proof.Machine

/-! ### The packer -/

theorem getnib_setnib_same (b : Byte) (x : Nat) (v : Nibble) : getnib (setnib b x v) x = v := by
  unfold getnib setnib
  split
  · exact BitVec.extractLsb'_append_eq_left
  · exact BitVec.extractLsb'_append_eq_right

theorem getnib_setnib_other (b : Byte) (x z : Nat) (v : Nibble) (h : z % 2 ≠ x % 2) :
    getnib (setnib b x v) z = getnib b z := by
  unfold getnib setnib
  have hx : x % 2 = 0 ∨ x % 2 = 1 := by omega
  rcases hx with hx | hx
  · have hz : z % 2 ≠ 0 := by omega
    simp only [hx, hz, if_true, if_false]
    exact BitVec.extractLsb'_append_eq_right
  · have hz : z % 2 = 0 := by omega
    have hx' : ¬ x % 2 = 0 := by omega
    simp only [hx', hz, if_true, if_false]
    exact BitVec.extractLsb'_append_eq_left

/-! ### The indexer -/

/-- For an even width the index of an in-bounds pixel lies inside the framebuffer (R54). -/
theorem idx_lt_fbSize {cfg : Cfg} {x y : Nat} (hw : cfg.w % 2 = 0) (hx : x < cfg.w) (hy : y < cfg.h) :
    idx cfg x y < cfg.fbSize := by
  unfold idx Cfg.fbSize
  obtain ⟨m, hm⟩ : ∃ m, cfg.w = 2 * m := ⟨cfg.w / 2, by omega⟩
  rw [hm] at hx ⊢
  have h1 : 2 * m / 2 = m := by omega
  have h2 : 2 * m * cfg.h / 2 = cfg.h * m := by rw [Nat.mul_assoc, Nat.mul_div_cancel_left _ (by omega), Nat.mul_comm]
  rw [h1, h2]
  have h3 : (y + 1) * m ≤ cfg.h * m := Nat.mul_le_mul_right m hy
  have h4 : (y + 1) * m = y * m + m := by ring
  omega

/-- Two in-bounds pixels share a byte only if they are in one row and in one column pair (R51). -/
theorem idx_inj {cfg : Cfg} {x y x' y' : Nat} (hw : cfg.w % 2 = 0) (hx : x < cfg.w) (hx' : x' < cfg.w)
    (h : idx cfg x y = idx cfg x' y') : y = y' ∧ x / 2 = x' / 2 := by
  unfold idx at h
  have hm : x / 2 < cfg.w / 2 := by omega
  have hm' : x' / 2 < cfg.w / 2 := by omega
  have hpos : 0 < cfg.w / 2 := by omega
  have e1 : (y * (cfg.w / 2) + x / 2) / (cfg.w / 2) = y := by
    rw [Nat.mul_comm, Nat.mul_add_div hpos, Nat.div_eq_of_lt hm, Nat.add_zero]
  have e2 : (y' * (cfg.w / 2) + x' / 2) / (cfg.w / 2) = y' := by
    rw [Nat.mul_comm, Nat.mul_add_div hpos, Nat.div_eq_of_lt hm', Nat.add_zero]
  have hy : y = y' := by rw [← e1, ← e2, h]
  subst hy
  exact ⟨rfl, by omega⟩

/-- `0 <= x < W` and `0 <= y < H`, as naturals. -/
theorem inBounds_iff {cfg : Cfg} {x y : Int} :
    inBounds cfg x y = true ↔ ∃ a b : Nat, x = a ∧ y = b ∧ a < cfg.w ∧ b < cfg.h := by
  simp only [inBounds, Bool.and_eq_true, decide_eq_true_eq, and_assoc]
  constructor
  · rintro ⟨h1, h2, h3, h4⟩
    exact ⟨x.toNat, y.toNat, by omega, by omega, by omega, by omega⟩
  · rintro ⟨a, b, rfl, rfl, h1, h2⟩
    omega

/-! ### One pixel -/

theorem updatePixel_wf {cfg : Cfg} {color : Color} {fb : Mem} {x y : Nat} (h : fb.wf = true) :
    (updatePixel cfg color fb x y).wf = true := Mem.write_wf _ _ h

/-- A pixel update reads as the old memory everywhere but in its byte. -/
theorem read_updatePixel_other {cfg : Cfg} {color : Color} {fb : Mem} {x y a : Nat} (h : fb.wf = true)
    (ha : a ≠ idx cfg x y) : (updatePixel cfg color fb x y).read a = fb.read a := by
  simp [updatePixel, Mem.read_write _ _ _ h, ha]

theorem read_updatePixel_same {cfg : Cfg} {color : Color} {fb : Mem} {x y : Nat} (h : fb.wf = true) :
    (updatePixel cfg color fb x y).read (idx cfg x y)
      = setnib (fb.read (idx cfg x y)) x (applyColor cfg (pixel cfg fb x y) color) := by
  simp [updatePixel, Mem.read_write _ _ _ h, pixel]

/-- The pixel updated has the colour applied (R181 (e)). -/
theorem pixel_updatePixel_same {cfg : Cfg} {color : Color} {fb : Mem} {x y : Nat} (h : fb.wf = true) :
    pixel cfg (updatePixel cfg color fb x y) x y = applyColor cfg (pixel cfg fb x y) color := by
  rw [pixel, read_updatePixel_same h, getnib_setnib_same]

/-- Every other in-bounds pixel is unchanged (R181 (b)). -/
theorem pixel_updatePixel_other {cfg : Cfg} {color : Color} {fb : Mem} {x y x' y' : Nat} (h : fb.wf = true)
    (hw : cfg.w % 2 = 0) (hx : x < cfg.w) (hx' : x' < cfg.w) (hne : ¬ (x' = x ∧ y' = y)) :
    pixel cfg (updatePixel cfg color fb x y) x' y' = pixel cfg fb x' y' := by
  by_cases hi : idx cfg x' y' = idx cfg x y
  · obtain ⟨hy, hd⟩ := idx_inj hw hx' hx hi
    have hp : x' % 2 ≠ x % 2 := by
      intro hc
      exact hne ⟨by omega, hy⟩
    rw [pixel, pixel, hi, read_updatePixel_same h, getnib_setnib_other _ _ _ _ hp]
  · rw [pixel, pixel, read_updatePixel_other h hi]

theorem setpix_wf {cfg : Cfg} {color : Color} {fb : Mem} {x y : Int} (h : fb.wf = true) :
    (setpix cfg color fb x y).wf = true := by
  unfold setpix
  split
  · exact updatePixel_wf h
  · exact h

theorem setpix_within {cfg : Cfg} {color : Color} {fb : Mem} {x y : Int} (hw : cfg.w % 2 = 0)
    (h : fb.within cfg.fbSize = true) : (setpix cfg color fb x y).within cfg.fbSize = true := by
  unfold setpix
  split
  · rename_i hb
    obtain ⟨a, b, rfl, rfl, ha, hb⟩ := inBounds_iff.mp hb
    exact Mem.write_within _ (idx_lt_fbSize hw (by simpa using ha) (by simpa using hb)) h
  · exact h

/-- What `setpix` does to an in-bounds pixel: the colour applied to its own pixel, nothing to the others (R180). -/
theorem pixel_setpix {cfg : Cfg} {color : Color} {fb : Mem} {x y : Int} {px py : Nat} (h : fb.wf = true)
    (hw : cfg.w % 2 = 0) (hpx : px < cfg.w) (hpy : py < cfg.h) :
    pixel cfg (setpix cfg color fb x y) px py
      = if x = px ∧ y = py then applyColor cfg (pixel cfg fb px py) color else pixel cfg fb px py := by
  unfold setpix
  split
  · rename_i hb
    obtain ⟨a, b, rfl, rfl, ha, hb⟩ := inBounds_iff.mp hb
    simp only [Int.toNat_natCast, Nat.cast_inj]
    split
    · rename_i he
      obtain ⟨rfl, rfl⟩ := he
      exact pixel_updatePixel_same h
    · rename_i he
      exact pixel_updatePixel_other h hw ha hpx (fun hc => he ⟨hc.1.symm, hc.2.symm⟩)
  · rename_i hb
    split
    · rename_i he
      exact absurd (inBounds_iff.mpr ⟨px, py, he.1, he.2, hpx, hpy⟩) hb
    · rfl

/-- `setpix` leaves every byte alone that is not the byte of its pixel (R190). -/
theorem read_setpix_other {cfg : Cfg} {color : Color} {fb : Mem} {x y : Int} {a : Nat} (h : fb.wf = true)
    (ha : inBounds cfg x y = true → a ≠ idx cfg x.toNat y.toNat) :
    (setpix cfg color fb x y).read a = fb.read a := by
  unfold setpix
  split
  · rename_i hb
    exact read_updatePixel_other h (ha hb)
  · rfl

/-! ### Many pixels -/

theorem setpixels_wf {cfg : Cfg} {color : Color} : ∀ (ps : List (Int × Int)) {fb : Mem}, fb.wf = true →
    (setpixels cfg color ps fb).wf = true
  | [], _, h => h
  | _ :: rest, _, h => setpixels_wf rest (setpix_wf h)

theorem setpixels_within {cfg : Cfg} {color : Color} (hw : cfg.w % 2 = 0) : ∀ (ps : List (Int × Int)) {fb : Mem},
    fb.within cfg.fbSize = true → (setpixels cfg color ps fb).within cfg.fbSize = true
  | [], _, h => h
  | _ :: rest, _, h => setpixels_within hw rest (setpix_within hw h)

/-- The frame of a list of pixels: a byte that is the byte of no listed in-bounds pixel reads as before (R190). -/
theorem read_setpixels_other {cfg : Cfg} {color : Color} {a : Nat} : ∀ (ps : List (Int × Int)) {fb : Mem}, fb.wf = true →
    (∀ p ∈ ps, inBounds cfg p.1 p.2 = true → a ≠ idx cfg p.1.toNat p.2.toNat) →
    (setpixels cfg color ps fb).read a = fb.read a
  | [], _, _, _ => rfl
  | p :: rest, _, h, ha => by
    have h1 := read_setpixels_other (color := color) rest (setpix_wf (cfg := cfg) (color := color) (x := p.1) (y := p.2) h)
      (fun q hq => ha q (List.mem_cons_of_mem _ hq))
    exact h1.trans (read_setpix_other h (ha p List.mem_cons_self))

/-- Setting pixels none of which is listed twice applies the colour once to each listed one, and nothing else (R182, R183,
R185 (f)). -/
theorem pixel_setpixels {cfg : Cfg} {color : Color} {px py : Nat} (hw : cfg.w % 2 = 0) (hpx : px < cfg.w)
    (hpy : py < cfg.h) : ∀ (ps : List (Int × Int)) {fb : Mem}, ps.Nodup → fb.wf = true →
    pixel cfg (setpixels cfg color ps fb) px py
      = if ((px : Int), (py : Int)) ∈ ps then applyColor cfg (pixel cfg fb px py) color else pixel cfg fb px py
  | [], _, _, _ => by simp [setpixels]
  | p :: rest, fb, hn, h => by
    have hn' := List.nodup_cons.mp hn
    have ih := pixel_setpixels (color := color) hw hpx hpy rest hn'.2 (setpix_wf (cfg := cfg) (color := color) (x := p.1) (y := p.2) h)
    have hs : setpixels cfg color (p :: rest) fb = setpixels cfg color rest (setpix cfg color fb p.1 p.2) := rfl
    rw [hs, ih, pixel_setpix h hw hpx hpy]
    by_cases hp : p = ((px : Int), (py : Int))
    · subst hp
      simp [hn'.1]
    · have hp1 : ¬ (p.1 = (px : Int) ∧ p.2 = (py : Int)) := fun hc => hp (Prod.ext hc.1 hc.2)
      have hp2 : ¬ (((px : Int), (py : Int)) = p) := fun hc => hp hc.symm
      simp only [hp1, if_false, List.mem_cons, hp2, false_or]

/-! ### The listed pixels -/

theorem mem_intsFrom {a b v : Int} : v ∈ intsFrom a b ↔ a ≤ v ∧ v < b := by
  simp only [intsFrom, List.mem_map, List.mem_range]
  constructor
  · rintro ⟨k, hk, rfl⟩
    omega
  · rintro ⟨h1, h2⟩
    exact ⟨(v - a).toNat, by omega, by omega⟩

theorem intsFrom_nodup (a b : Int) : (intsFrom a b).Nodup :=
  List.nodup_range.map (fun i j h => by simpa using h)

/-- The pixels of a vertical run (R182). -/
theorem mem_vlinePixels {cfg : Cfg} {x y len px py : Int} : (px, py) ∈ vlinePixels cfg x y len ↔
    0 < len ∧ px = x ∧ 0 ≤ x ∧ x < cfg.w ∧ y ≤ py ∧ py < y + len ∧ 0 ≤ py ∧ py < cfg.h := by
  unfold vlinePixels
  split
  · simp only [List.not_mem_nil, false_iff]
    omega
  · simp only [List.mem_map, mem_intsFrom, Prod.mk.injEq]
    constructor
    · rintro ⟨v, hv, rfl, rfl⟩
      omega
    · intro h
      exact ⟨py, by omega, h.2.1.symm, rfl⟩

theorem vlinePixels_nodup (cfg : Cfg) (x y len : Int) : (vlinePixels cfg x y len).Nodup := by
  unfold vlinePixels
  split
  · exact List.nodup_nil
  · exact (intsFrom_nodup _ _).map (fun i j h => by simpa using h)

/-- The pixels of a horizontal run (R183). -/
theorem mem_hlinePixels {cfg : Cfg} {x y len px py : Int} : (px, py) ∈ hlinePixels cfg x y len ↔
    0 < len ∧ py = y ∧ 0 ≤ y ∧ y < cfg.h ∧ x ≤ px ∧ px < x + len ∧ 0 ≤ px ∧ px < cfg.w := by
  unfold hlinePixels
  split
  · simp only [List.not_mem_nil, false_iff]
    omega
  · simp only [List.mem_map, mem_intsFrom, Prod.mk.injEq]
    constructor
    · rintro ⟨v, hv, rfl, rfl⟩
      omega
    · intro h
      exact ⟨px, by omega, rfl, h.2.1.symm⟩

theorem hlinePixels_nodup (cfg : Cfg) (x y len : Int) : (hlinePixels cfg x y len).Nodup := by
  unfold hlinePixels
  split
  · exact List.nodup_nil
  · exact (intsFrom_nodup _ _).map (fun i j h => by simpa using h)

/-- The pixels of a bitmap: those under set source bits (R185). -/
theorem mem_bitmapPixels {cfg : Cfg} {bmp : Mem} {x y w h px py : Int} {src : Nat} :
    (px, py) ∈ bitmapPixels cfg bmp x y src w h ↔
      ∃ i j : Nat, (i : Int) < w ∧ (j : Int) < h ∧ px = x + i ∧ py = y + j ∧ srcBit cfg bmp src w.toNat i j = true := by
  simp only [bitmapPixels, List.mem_flatMap, List.mem_map, List.mem_filter, List.mem_range, Prod.mk.injEq]
  constructor
  · rintro ⟨j, hj, i, ⟨hi, hs⟩, rfl, rfl⟩
    exact ⟨i, j, by omega, by omega, rfl, rfl, hs⟩
  · rintro ⟨i, j, hi, hj, rfl, rfl, hs⟩
    exact ⟨j, by omega, i, ⟨by omega, hs⟩, rfl, rfl⟩

theorem bitmapPixels_nodup (cfg : Cfg) (bmp : Mem) (x y : Int) (src : Nat) (w h : Int) :
    (bitmapPixels cfg bmp x y src w h).Nodup := by
  unfold bitmapPixels
  rw [List.nodup_flatMap]
  refine ⟨fun j _ => (List.nodup_range.filter _).map (fun i i' hh => by simpa using hh), ?_⟩
  refine List.nodup_range.imp ?_
  intro j j' hne
  simp only [Function.onFun, List.disjoint_left, List.mem_map]
  rintro p ⟨i, _, rfl⟩ ⟨i', _, hp⟩
  simp only [Prod.mk.injEq] at hp
  exact hne (by omega)

end Sys2Proof.Machine
end

