-- ==== Sys2Proof/Laws/Plan.lean ====
section
/-! SUPPORT. The plans of the operations: when a request is refused or completes, what the last act of an operation leaves
unchanged, and what the operation under way is. -/

namespace Sys2Proof.Machine

/-! ### Refused or completed -/

/-- A request that is not admitted is refused, for every operation (R28 to R30). -/
theorem exec_refused {i : Instr} {s : State} {r : Refusal} (h : admission (gateOf i) s = some r) : exec i s = .refused r := by
  cases i <;> simp only [gateOf] at h <;> simp [exec, execSendcmd, execSenddata, execPwron, execPwroff, execSetwin,
    execSetcontrast, execSetremap, execSelgray, execCfgscroll, execScrollon, execScrolloff, execSetstartline, execBegin,
    execSetpixel, execVline, execHline, execBitmap, execFill, execClear, execDisplay, execStartscrollright,
    execStartscrollleft, execStartscrolldiagright, execStartscrolldiagleft, execStopscroll, execInvertdisplay, execDim,
    runOp, runPixelOp, h]

theorem gateOf_of_ne {i : Instr} (h : i ≠ .beginInit) : gateOf i = .afterBegin := by
  cases i <;> first | rfl | exact absurd rfl h

/-- An admitted request is performed, on an even width and with a bitmap's source inside BMP. -/
theorem exec_perform {i : Instr} {s : State} (ha : admission (gateOf i) s = none) (hw : s.cfg.w % 2 = 0)
    (hb : ∀ x y src w h c, i = .bitmap x y src w h c → sourceBeyond s.cfg src.toNat w h = false) :
    exec i s = .next (perform (planOf i s) s) := by
  cases i <;> simp only [gateOf] at ha
  case bitmap x y src w h c => simp [exec, execBitmap, ha, hb x y src w h c rfl, runPixelOp, hw, planOf]
  all_goals simp [exec, execSendcmd, execSenddata, execPwron, execPwroff, execSetwin, execSetcontrast, execSetremap,
    execSelgray, execCfgscroll, execScrollon, execScrolloff, execSetstartline, execBegin, execSetpixel, execVline,
    execHline, execFill, execClear, execDisplay, execStartscrollright, execStartscrollleft, execStartscrolldiagright,
    execStartscrolldiagleft, execStopscroll, execInvertdisplay, execDim, runOp, runPixelOp, ha, hw, planOf]

/-- An operation that only sends, admitted: it completes with the frames of its calls. -/
theorem exec_sends {i : Instr} {s : State} {calls : List Call} (he : s.EngineReturns) (ha : s.Ready)
    (hi : exec i s = runOp .afterBegin (sendPlan calls) s) :
    ∃ t, exec i s = .next t ∧ s.SentOnly t (calls.map Call.frame) :=
  ⟨_, by rw [hi, runOp_sendPlan (admission_afterBegin.mpr ha) he], s.afterCalls_sentOnly calls⟩

/-! ### Plans -/

/-- A plan depends on CFG, FB and BMP alone. -/
theorem planOf_congr (i : Instr) {s u : State} (hc : u.cfg = s.cfg) (hf : u.fb = s.fb) (hb : u.bmp = s.bmp) :
    planOf i u = planOf i s := by
  cases i <;> simp [planOf, hc, hf, hb]

/-- What the last act of every operation leaves unchanged. -/
structure State.SameFrame (u t : State) : Prop where
  cfg : t.cfg = u.cfg
  cfgOk : t.cfgOk = u.cfgOk
  bmp : t.bmp = u.bmp
  pins : t.pins = u.pins
  trace : t.trace = u.trace
  pinTrace : t.pinTrace = u.pinTrace
  busy : t.busy = u.busy
  seq : t.seq = u.seq
  req : t.req = u.req
  port : t.port = u.port
  engine : t.engine = u.engine

/-- The last act of an operation writes FB, SCROLL, SCROLLCFG or INIT_DONE at most. -/
theorem planOf_finish (i : Instr) (s u : State) : u.SameFrame ((planOf i s).finish u) := by
  cases i <;> try exact ⟨rfl, rfl, rfl, rfl, rfl, rfl, rfl, rfl, rfl, rfl, rfl⟩
  case display f => cases f <;> exact ⟨rfl, rfl, rfl, rfl, rfl, rfl, rfl, rfl, rfl, rfl, rfl⟩

/-- The operation under way is the one REQ decodes to, in the call SEQ names. -/
theorem State.running_some {s : State} {p : Plan} {k : Nat} {c : Call} (h : s.running = some (p, k, c)) :
    ∃ i, decode s.req = .ok i ∧ p = planOf i s ∧ p.calls[k]? = some c ∧ ∃ pos, s.seq = some pos ∧ pos.call = k := by
  unfold State.running at h
  split at h
  · rename_i i pos hd hs
    split at h
    · rename_i c' hc
      simp only [Option.some.injEq, Prod.mk.injEq] at h
      obtain ⟨rfl, rfl, rfl⟩ := h
      exact ⟨i, hd, rfl, hc, pos, hs, rfl⟩
    · cases h
  · cases h

/-- Running the rest of an operation leaves CFG, CFG_OK, BMP and the reset signal as they were. -/
theorem continueWith_keeps (i : Instr) (u s : State) (k : Nat) (cs : List Call) :
    (continueWith (planOf i u) k cs s).cfg = s.cfg ∧ (continueWith (planOf i u) k cs s).cfgOk = s.cfgOk
      ∧ (continueWith (planOf i u) k cs s).bmp = s.bmp ∧ (continueWith (planOf i u) k cs s).pins.rst = s.pins.rst := by
  have h := runCalls_same cs k s
  unfold continueWith
  split
  · rename_i s' hs
    rw [hs] at h
    have f := planOf_finish i u { s' with busy := false, seq := none }
    simp only [State.complete, f.cfg, f.cfgOk, f.bmp, f.pins]
    exact ⟨h.cfg, h.cfgOk, h.bmp, h.rst⟩
  · rename_i s' hs
    rw [hs] at h
    exact ⟨h.cfg, h.cfgOk, h.bmp, h.rst⟩

end Sys2Proof.Machine
end

