-- ==== Sys2Proof/Laws/Receive.lean ====
section
/-! SUPPORT. What a receiver reads from the pins of a transport call (spec 40_transport.md R119), and the levels a shift leaves. -/

namespace Sys2Proof.Machine

/-! ### The receiver -/

theorem received_append (cfg : Cfg) (a b : List PinEvent) :
    received cfg (a ++ b) = b.foldl (Receiver.receive cfg) (received cfg a) := by
  simp [received]

/-- Eight bits in wire order are their byte again. -/
theorem byteOfBits_wireBits (b : Byte) : byteOfBits (wireBits b) = b := by
  revert b
  decide +kernel

/-- A byte's pin writes deliver the byte. -/
theorem receive_byte (cfg : Cfg) (r : Receiver) (b : Byte) (hs : r.selected = true) (hb : r.bits = []) :
    ((wireBits b).flatMap (bitEvents cfg)).foldl (Receiver.receive cfg) r
      = { r with data := b.getLsbD 0, bytes := r.bytes ++ [b] } := by
  have h := byteOfBits_wireBits b
  simp only [wireBits] at h
  obtain ⟨sel, dc, data, bits, bytes, frames⟩ := r
  simp only at hs hb
  subst hs hb
  cases hc : cfg.clkActive <;> simp [wireBits, bitEvents, Receiver.receive, Receiver.sample, hc] <;> simpa using h

theorem receive_shiftBitbang (cfg : Cfg) : ∀ (bs : List Byte) (r : Receiver), r.selected = true → r.bits = [] →
    ∃ d, (shiftBitbang cfg bs).foldl (Receiver.receive cfg) r = { r with data := d, bytes := r.bytes ++ bs }
  | [], r, _, _ => ⟨r.data, by simp [shiftBitbang]⟩
  | b :: rest, r, hs, hb => by
    obtain ⟨d, hd⟩ := receive_shiftBitbang cfg rest { r with data := b.getLsbD 0, bytes := r.bytes ++ [b] } hs hb
    refine ⟨d, ?_⟩
    have h : shiftBitbang cfg (b :: rest) = (wireBits b).flatMap (bitEvents cfg) ++ shiftBitbang cfg rest := by
      simp [shiftBitbang]
    rw [h, List.foldl_append, receive_byte _ _ _ hs hb, hd]
    simp

/-- The opening of a call, in either mode: the receiver is selected and holds the call's DC and bytes. -/
theorem receive_opening (cfg : Cfg) (c : Call) (r : Receiver) :
    ∃ d, (c.opening cfg).foldl (Receiver.receive cfg) r
      = { selected := true, dc := c.dc, data := d, bits := [], bytes := c.bytes, frames := r.frames } := by
  simp only [Call.opening, List.foldl_append]
  have h : [PinEvent.pin .dc c.dc, .pin .cs cfg.csActive].foldl (Receiver.receive cfg) r
      = { selected := true, dc := c.dc, data := r.data, bits := [], bytes := [], frames := r.frames } := by
    simp [Receiver.receive]
  rw [h]
  unfold shift
  split
  · obtain ⟨d, hd⟩ := receive_shiftBitbang cfg c.bytes
      { selected := true, dc := c.dc, data := r.data, bits := [], bytes := [], frames := r.frames } rfl rfl
    exact ⟨d, by rw [hd]; simp⟩
  · exact ⟨r.data, by simp [Receiver.receive]⟩

/-- The end of a call: the frame is complete. -/
theorem receive_closing (cfg : Cfg) (r : Receiver) (hs : r.selected = true) :
    (closing cfg).foldl (Receiver.receive cfg) r
      = { r with selected := false, bits := [], bytes := [], frames := r.frames ++ [.frame r.dc r.bytes] } := by
  cases h : cfg.csActive <;> simp [closing, Receiver.receive, hs, h]

/-! ### Levels -/

/-- A shift does not touch CS. -/
theorem shift_cs (cfg : Cfg) (bs : List Byte) : ∀ p : Pins, ((shift cfg bs).foldl Pins.apply p).cs = p.cs := by
  unfold shift
  split
  · simp only [shiftBitbang]
    induction bs with
    | nil => intro p; rfl
    | cons a r ih =>
      intro p
      rw [List.flatMap_cons, List.foldl_append, ih]
      simp [wireBits, bitEvents, Pins.apply]
  · intro p; rfl

/-- A bit-banged shift leaves CLK de-asserted, if it was before. -/
theorem shift_clk {cfg : Cfg} (h : cfg.busMode = .bitbang) (bs : List Byte) : ∀ p : Pins, p.clk = (!cfg.clkActive) →
    ((shift cfg bs).foldl Pins.apply p).clk = !cfg.clkActive := by
  simp only [shift, h, shiftBitbang]
  induction bs with
  | nil => intro p hp; simpa using hp
  | cons a r ih =>
    intro p hp
    rw [List.flatMap_cons, List.foldl_append]
    apply ih
    simp [wireBits, bitEvents, Pins.apply]

end Sys2Proof.Machine
end

