-- ==== Sys2Proof/Tests/Slice0.lean ====
section
/-! SUPPORT. The model's own tests: ill-formed terms, words written out from the spec's encodings, one step of each operation
against 95_test_vectors.md, and a witness for the hypotheses of every statement that has some. Every expected value is the
spec's, or a hand calculation from its rule. -/

namespace Sys2Proof.Tests

open Sys2Proof Sys2Proof.Machine

/-! ### Well-formedness (R82): a term for each check that the check refuses -/

theorem test_wf_setpixel_x : (Instr.setpixel 32768 0 .on).wf = false := by decide
theorem test_wf_setpixel_y : (Instr.setpixel 0 (-32769) .on).wf = false := by decide
theorem test_wf_vline_x : (Instr.vline (-32769) 0 1 .on).wf = false := by decide
theorem test_wf_vline_y : (Instr.vline 0 32768 1 .on).wf = false := by decide
theorem test_wf_vline_len : (Instr.vline 0 0 32768 .on).wf = false := by decide
theorem test_wf_hline_x : (Instr.hline 32768 0 1 .on).wf = false := by decide
theorem test_wf_hline_y : (Instr.hline 0 (-32769) 1 .on).wf = false := by decide
theorem test_wf_hline_len : (Instr.hline 0 0 (-32769) .on).wf = false := by decide
theorem test_wf_bitmap_x : (Instr.bitmap 32768 0 0 1 1 .on).wf = false := by decide
theorem test_wf_bitmap_y : (Instr.bitmap 0 32768 0 1 1 .on).wf = false := by decide
theorem test_wf_bitmap_w : (Instr.bitmap 0 0 0 (-32769) 1 .on).wf = false := by decide
theorem test_wf_bitmap_h : (Instr.bitmap 0 0 0 1 32768 .on).wf = false := by decide

/-! ### Decoding: every constructor by a word written out from the spec (R80 to R84, R91, T-ENC, T-TR, T-SCR, P1 to P5) -/

/-- T-TR: `01 00AF`, `02 0012`; `01 12AF` is SENDCMD too, because only `a0[7:0]` is read. -/
theorem test_decode_transport :
    decode 0x0100AF00000000000000000000 = .ok (.sendcmd 0xAF) ∧
    decode 0x0112AF00000000000000000000 = .ok (.sendcmd 0xAF) ∧
    decode 0x02001200000000000000000000 = .ok (.senddata 0x12) := by decide

/-- T-ENC, the power, window and parameter operations. -/
theorem test_decode_encoder :
    decode 0x10000000000000000000000000 = .ok .pwron ∧
    decode 0x11000000000000000000000000 = .ok .pwroff ∧
    decode 0x12001C005B0000003F00000000 = .ok (.setwin 0x1C 0x5B 0x00 0x3F) ∧
    decode 0x1200FF00000080001000000000 = .ok (.setwin 0xFF 0x00 0x80 0x10) ∧
    decode 0x13007F00000000000000000000 = .ok (.setcontrast 0x7F) ∧
    decode 0x14001400110000000000000000 = .ok (.setremap 0x14 0x11) ∧
    decode 0x15000000000000000000000000 = .ok .selgray ∧
    decode 0x1900C800000000000000000000 = .ok (.setstartline 200) ∧
    decode 0x1F000000000000000000000000 = .ok .beginInit := by decide

/-- T-ENC, the scroll commands: `left` is `a2[0]` and `diagonal` is `a2[1]`. -/
theorem test_decode_scroll_commands :
    decode 0x16000200050001000000000000 = .ok (.cfgscroll 2 5 true false) ∧
    decode 0x16000000070002000000000000 = .ok (.cfgscroll 0 7 false true) ∧
    decode 0x17000000000000000000000000 = .ok .scrollon ∧
    decode 0x18000000000000000000000000 = .ok .scrolloff := by decide

/-- T-PACK, T-VL, T-HL, T-BMP, T-FILL. -/
theorem test_decode_drawing :
    decode 0x2000030002003A000000000000 = .ok (.setpixel 3 2 (.raw 10)) ∧
    decode 0x21000AFFFE0004003700000000 = .ok (.vline 10 (-2) 4 (.raw 7)) ∧
    decode 0x22FF9C00007FFF001000000000 = .ok (.hline (-100) 0 32767 .on) ∧
    decode 0x23FFFC00000000000800010000 = .ok (.bitmap (-4) 0 0 8 1 .off) ∧
    decode 0x23000000000010000800020010 = .ok (.bitmap 0 0 16 8 2 .on) ∧
    decode 0x2400FA00000000000000000000 = .ok (.fill 10) ∧
    decode 0x25000000000000000000000000 = .ok .clear ∧
    decode 0x30FFFE00000000000000000000 = .ok (.display false) ∧
    decode 0x30000100000000000000000000 = .ok (.display true) := by decide

/-- T-SCR, P4. -/
theorem test_decode_scroll_and_mode :
    decode 0x40000000070000000000000000 = .ok (.startscrollright 0 7) ∧
    decode 0x41000100060000000000000000 = .ok (.startscrollleft 1 6) ∧
    decode 0x42000000070000000000000000 = .ok (.startscrolldiagright 0 7) ∧
    decode 0x43000000070000000000000000 = .ok (.startscrolldiagleft 0 7) ∧
    decode 0x44000000000000000000000000 = .ok .stopscroll ∧
    decode 0x45000100000000000000000000 = .ok (.invertdisplay true) ∧
    decode 0x46000000000000000000000000 = .ok (.dim false) := by decide

/-- T-DEC: unassigned codes between the rows. -/
theorem test_decode_unassigned :
    decode 0x03000000000000000000000000 = .error (.unassignedOp 0x03) ∧
    decode 0x1A000000000000000000000000 = .error (.unassignedOp 0x1A) ∧
    decode 0x26000000000000000000000000 = .error (.unassignedOp 0x26) ∧
    decode 0x47000000000000000000000000 = .error (.unassignedOp 0x47) ∧
    decode 0xFF000000000000000000000000 = .error (.unassignedOp 0xFF) := by decide

/-- R80: the canonical word is the spec's word. -/
theorem test_encode_words :
    encode (.hline (-3) 5 5 .on) = 0x22FFFD00050005001000000000 ∧
    encode (.bitmap (-2) 1 0 12 4 .inv) = 0x23FFFE00010000000C00040020 ∧
    encode (.cfgscroll 0 7 true true) = 0x16000000070003000000000000 := by decide

/-! ### Small states -/

/-- 8×2 pixels, four bytes a row (P1). -/
def tiny : Cfg := { Cfg.standard with w := 8, h := 2, fullWin := ⟨0x1C, 0x1D, 0x00, 0x01⟩, bmpSize := 17 }

/-- A memory holding the bytes from address 0 on. -/
def memOf (bs : List Byte) : Mem := bs.zipIdx.foldl (fun m p => m.write p.2 p.1) []

/-- An initialised machine (BEGIN has run) with the framebuffer and the source bitmap given. -/
def machine (cfg : Cfg) (fb bmp : List Byte) : State :=
  { State.construct cfg { Launch.standard with fb := memOf fb, bmp := memOf bmp } with initDone := true }

/-- The machine after the one step that runs a request word. -/
def after (s : State) (word : Nat) : Host.Outcome State Fault Refusal := step (s.withFetchWord 104 word)

/-- The framebuffer of the next state, all its bytes. -/
def fbOf : Host.Outcome State Fault Refusal → Option (List Byte)
  | .next t => some (t.fb.bytes t.cfg.fbSize)
  | _ => none

/-- The byte-level trace of the next state. -/
def traceOf : Host.Outcome State Fault Refusal → Option (List Event)
  | .next t => some t.trace
  | _ => none

/-- The pin-level trace of the next state. -/
def pinsOf : Host.Outcome State Fault Refusal → Option (List PinEvent)
  | .next t => some t.pinTrace
  | _ => none

/-- SCROLL and SCROLLCFG of the next state. -/
def scrollOf : Host.Outcome State Fault Refusal → Option (ScrollState × Option ScrollCfg)
  | .next t => some (t.scroll, t.scrollCfg)
  | _ => none

/-- BUSY, INIT_DONE and whether SEQ is idle in the next state. -/
def statusOf : Host.Outcome State Fault Refusal → Option (Bool × Bool × Bool)
  | .next t => some (t.busy, t.initDone, t.seq.isNone)
  | _ => none

/-- Why the step was refused. -/
def refusalOf : Host.Outcome State Fault Refusal → Option Refusal
  | .refused r => some r
  | _ => none

/-- Why the step faulted. -/
def faultOf : Host.Outcome State Fault Refusal → Option Fault
  | .fault r => some r
  | _ => none

/-- The default machine of the vectors: 256×64. -/
def big : State := machine Cfg.standard [] []

/-! ### Transport and encoder, one step each (T-ENC, T-TR) -/

theorem test_sendcmd : traceOf (after big 0x0100AF00000000000000000000) = some [evC 0xAF] := by decide
theorem test_senddata : traceOf (after big 0x02001200000000000000000000) = some [evD 0x12] := by decide

/-- T-TR: SENDCMD 0xA5 with CS_ACTIVE = 1 and CLK_ACTIVE = 0. -/
theorem test_sendcmd_pins :
    pinsOf (after (machine { Cfg.standard with csActive := true, clkActive := false } [] []) 0x0100A500000000000000000000)
      = some [.pin .dc false, .pin .cs true,
          .pin .data true, .pin .clk false, .pin .clk true, .pin .data false, .pin .clk false, .pin .clk true,
          .pin .data true, .pin .clk false, .pin .clk true, .pin .data false, .pin .clk false, .pin .clk true,
          .pin .data false, .pin .clk false, .pin .clk true, .pin .data true, .pin .clk false, .pin .clk true,
          .pin .data false, .pin .clk false, .pin .clk true, .pin .data true, .pin .clk false, .pin .clk true,
          .pin .cs false] := by decide

theorem test_pwron : traceOf (after big 0x10000000000000000000000000) = some [evC 0xAF] := by decide
theorem test_pwroff : traceOf (after big 0x11000000000000000000000000) = some [evC 0xAE] := by decide
theorem test_setwin : traceOf (after big 0x1200FF00000080001000000000)
    = some [evC 0x15, evD 0xFF, evD 0x00, evC 0x75, evD 0x80, evD 0x10] := by decide
theorem test_setcontrast : traceOf (after big 0x13007F00000000000000000000) = some [evC 0xC1, evD 0x7F] := by decide
theorem test_setremap : traceOf (after big 0x14001400110000000000000000)
    = some [evC 0xA0, evD 0x14, evD 0x11] := by decide
theorem test_selgray : traceOf (after big 0x15000000000000000000000000) = some [evC 0xB9] := by decide
theorem test_cfgscroll_left : traceOf (after big 0x16000200050001000000000000)
    = some [evC 0x27, evD 0x00, evD 0x02, evD 0x00, evD 0x05, evD 0x00, evD 0xFF] := by decide
theorem test_cfgscroll_diagonal : traceOf (after big 0x16000000070003000000000000)
    = some [evC 0xA3, evD 0x00, evD 0x40, evC 0x2A, evD 0x00, evD 0x00, evD 0x00, evD 0x07, evD 0x01] := by decide
theorem test_scrollon : traceOf (after big 0x17000000000000000000000000) = some [evC 0x2F] := by decide
/-- T-SCR, decision D7: SCROLLON and SCROLLOFF do not write SCROLL. -/
theorem test_scrollon_state : scrollOf (after big 0x17000000000000000000000000) = some (.inactive, none) := by decide
theorem test_scrolloff : traceOf (after big 0x18000000000000000000000000) = some [evC 0x2E] := by decide
theorem test_scrolloff_state : scrollOf (after (big.startScroll ⟨false, false, 0, 7⟩) 0x18000000000000000000000000)
    = some (.active, some ⟨false, false, 0, 7⟩) := by decide
theorem test_setstartline : traceOf (after big 0x1900C800000000000000000000) = some [evC 0xA1, evD 0xC8] := by decide

/-- T-BEGIN: from reset, with RESET_ON_BEGIN: Rst and the 40 frames. -/
theorem test_begin : traceOf (after State.reset 0x1F000000000000000000000000)
    = some ([.rst] ++
        [evC 0xFD, evD 0x12, evC 0xAE, evC 0xB3, evD 0x91, evC 0xCA, evD 0x3F, evC 0xA2, evD 0x00, evC 0xA1, evD 0x00,
         evC 0xA0, evD 0x14, evD 0x11] ++
        [evC 0xB5, evD 0x00, evC 0xAB, evD 0x01, evC 0xB4, evD 0xA0, evD 0xFD, evC 0xC1, evD 0x9F, evC 0xC7, evD 0x0F,
         evC 0xB9] ++
        [evC 0xB1, evD 0xE2, evC 0xD1, evD 0x82, evD 0x20, evC 0xBB, evD 0x1F, evC 0xB6, evD 0x08, evC 0xBE, evD 0x07,
         evC 0xA6, evC 0xA9, evC 0xAF]) := by decide
theorem test_begin_status : statusOf (after State.reset 0x1F000000000000000000000000) = some (false, true, true) := by
  decide

/-! ### Primitives on the tiny display (P1, S4, T-BMP) -/

theorem test_setpixel : fbOf (after (machine tiny [0xF0, 0, 0, 0, 0, 0, 0, 0] []) 0x20000700010039000000000000)
    = some [0xF0, 0, 0, 0, 0, 0, 0, 0x09] := by decide
/-- R181 (a): out of bounds on the right, `SETPIXEL 8, 0, ON`: not the first pixel of the next row. -/
theorem test_setpixel_outside : fbOf (after (machine tiny [1, 2, 3, 4, 5, 6, 7, 8] []) 0x20000800000010000000000000)
    = some [1, 2, 3, 4, 5, 6, 7, 8] := by decide
theorem test_vline : fbOf (after (machine tiny [0xF0, 0xFF, 0xF0, 0, 0, 0, 0, 0x09] []) 0x210005FFFF0005003400000000)
    = some [0xF0, 0xFF, 0xF4, 0, 0, 0, 0x04, 0x09] := by decide
/-- R182: `VLINE 3, -5, 5, ON` is a no-op: y + len = 0. -/
theorem test_vline_above : fbOf (after (machine tiny [1, 2, 3, 4, 5, 6, 7, 8] []) 0x210003FFFB0005001000000000)
    = some [1, 2, 3, 4, 5, 6, 7, 8] := by decide
theorem test_hline : fbOf (after (machine tiny [0xF0, 0, 0, 0, 0, 0, 0, 0x09] []) 0x22000200000003001000000000)
    = some [0xF0, 0xFF, 0xF0, 0, 0, 0, 0, 0x09] := by decide
/-- R183: the run ends at the right edge, `HLINE 6, 0, 10, ON`: the next row keeps its bytes. -/
theorem test_hline_edge : fbOf (after (machine tiny [] []) 0x2200060000000A001000000000)
    = some [0, 0, 0, 0xFF, 0, 0, 0, 0] := by decide
/-- T-BMP: the two `D8 40` rows, byte_padded and bit_contiguous. -/
theorem test_bitmap_row_modes :
    fbOf (after (machine tiny [] [0xD8, 0x40]) 0x23000100000000000500020010)
      = some [0x0F, 0xF0, 0xFF, 0x00, 0x00, 0xF0, 0x00, 0x00] ∧
    fbOf (after (machine { tiny with bmpRowMode := .bitContiguous } [] [0xD8, 0x40]) 0x23000100000000000500020010)
      = some [0x0F, 0xF0, 0xFF, 0x00, 0x00, 0x00, 0x0F, 0x00] := by decide
/-- T-DEC: BMPSIZE = 17, two rows at 16 are refused, one row is accepted. -/
theorem test_bitmap_beyond : refusalOf (after (machine tiny [] []) 0x23000000000010000800020010)
    = some .bitmapBeyondSource ∧
    (fbOf (after (machine tiny [] []) 0x23000000000010000800010010)).isSome = true := by decide
theorem test_fill : fbOf (after (machine tiny [1, 2, 3] []) 0x24000A00000000000000000000)
    = some [0xAA, 0xAA, 0xAA, 0xAA, 0xAA, 0xAA, 0xAA, 0xAA] := by decide
/-- R188: 0x00 in every byte, with OFF_LEVEL = 1 too. -/
theorem test_clear : fbOf (after (machine { tiny with offLevel := 1 } [1, 2, 3, 4, 5, 6, 7, 8] []) 0x25000000000000000000000000)
    = some [0, 0, 0, 0, 0, 0, 0, 0] := by decide
/-- T-PACK: the whole table of one byte 5C. -/
theorem test_pack : setnib 0x5C 2 0xA = 0xAC ∧ setnib 0x5C 3 0xA = 0x5A ∧ getnib 0xAC 2 = 0xA ∧ getnib 0xAC 3 = 0xC ∧
    applyColor Cfg.standard 0xC .inv = 0x3 ∧ applyColor Cfg.standard 0x5 .inv = 0xA := by decide
/-- T-IDX. -/
theorem test_idx : idx Cfg.standard 255 0 = 127 ∧ idx Cfg.standard 0 1 = 128 ∧ idx Cfg.standard 3 2 = 257 ∧
    idx Cfg.standard 128 32 = 4160 ∧ idx Cfg.standard 255 63 = 8191 ∧ Cfg.standard.fbSize = 8192 ∧
    idx tiny 5 1 = 6 ∧ idx tiny 7 1 = 7 := by decide

/-! ### Flush (P1 step 7, T-DISP) -/

theorem test_display : traceOf (after (machine tiny [0xF0, 0xF0, 0xF4, 0, 0, 0, 0x04, 0x09] []) 0x30000000000000000000000000)
    = some [evC 0x15, evD 0x1C, evD 0x1D, evC 0x75, evD 0x00, evD 0x01, evC 0x5C,
        evDB [0xF0, 0xF0, 0xF4, 0, 0, 0, 0x04, 0x09]] := by decide
theorem test_display_clear :
    fbOf (after (machine tiny [1, 2, 3, 4, 5, 6, 7, 8] []) 0x30000100000000000000000000)
      = some [0, 0, 0, 0, 0, 0, 0, 0] := by decide
/-- R211: the phases of the eight calls of DISPLAY. -/
theorem test_flush_phases : (List.range 10).map (flushPhase true)
    = [.winCol, .winCol, .winCol, .winRow, .winRow, .winRow, .wram, .stream, .clear, .done] := by decide

/-! ### Scroll and display mode (T-SCR, P4) -/

theorem test_startscrollright : traceOf (after big 0x40000000070000000000000000)
    = some [evC 0x26, evD 0x00, evD 0x00, evD 0x00, evD 0x07, evD 0x00, evD 0xFF, evC 0x2F] := by decide
theorem test_startscrollright_state : scrollOf (after big 0x40000000070000000000000000)
    = some (.active, some ⟨false, false, 0, 7⟩) := by decide
theorem test_startscrollleft : traceOf (after big 0x41000100060000000000000000)
    = some [evC 0x27, evD 0x00, evD 0x01, evD 0x00, evD 0x06, evD 0x00, evD 0xFF, evC 0x2F] := by decide
theorem test_startscrollleft_state : scrollOf (after big 0x41000100060000000000000000)
    = some (.active, some ⟨false, true, 1, 6⟩) := by decide
theorem test_startscrolldiagright : traceOf (after big 0x42000000070000000000000000)
    = some [evC 0xA3, evD 0x00, evD 0x40, evC 0x29, evD 0x00, evD 0x00, evD 0x00, evD 0x07, evD 0x01, evC 0x2F] := by
  decide
theorem test_startscrolldiagright_state : scrollOf (after big 0x42000000070000000000000000)
    = some (.active, some ⟨true, false, 0, 7⟩) := by decide
theorem test_startscrolldiagleft : traceOf (after big 0x43000000070000000000000000)
    = some [evC 0xA3, evD 0x00, evD 0x40, evC 0x2A, evD 0x00, evD 0x00, evD 0x00, evD 0x07, evD 0x01, evC 0x2F] := by
  decide
theorem test_startscrolldiagleft_state : scrollOf (after big 0x43000000070000000000000000)
    = some (.active, some ⟨true, true, 0, 7⟩) := by decide
theorem test_stopscroll : traceOf (after (big.startScroll ⟨false, false, 0, 7⟩) 0x44000000000000000000000000)
    = some [evC 0x2E] := by decide
theorem test_stopscroll_state : scrollOf (after (big.startScroll ⟨false, false, 0, 7⟩) 0x44000000000000000000000000)
    = some (.inactive, none) := by decide
theorem test_invertdisplay_on : traceOf (after big 0x45000100000000000000000000) = some [evC 0xA7] := by decide
theorem test_invertdisplay_off : traceOf (after big 0x45000000000000000000000000) = some [evC 0xA6] := by decide
theorem test_dim_on : traceOf (after big 0x46000100000000000000000000) = some [evC 0xC1, evD 0x00] := by decide
theorem test_dim_off : traceOf (after big 0x46000000000000000000000000) = some [evC 0xC1, evD 0x9F] := by decide

/-! ### Refusals (T-DEC) -/

theorem test_refused_unassigned : refusalOf (after big 0x0F000000000000000000000000) = some (.unassignedOp 0x0F) := by
  decide
theorem test_refused_before_begin :
    refusalOf (step { State.reset with port := [⟨0x25000000000000000000000000, true⟩] }) = some .beforeBegin := by decide
theorem test_refused_second_begin :
    refusalOf (step { big with port := [⟨0x1F000000000000000000000000, true⟩] }) = some .secondBegin := by decide

/-! ### The engine (T-TR, R255) -/

/-- Mode HW on the tiny display. -/
def hwCfg : Cfg :=
  { tiny with busMode := .hw, pins := { tiny.pins with data := .engine, clock := .engine } }

/-- An initialised machine in mode HW with one request and the engine given. -/
def hwMachine (word : Request) (engine : Engine) : State :=
  { machine hwCfg [] [] with port := [⟨word, true⟩], engine := engine }

/-- T-TR: SENDCMD 0xA5 through the engine: no DATA and no CLK event. -/
theorem test_hw_pins : pinsOf (step (hwMachine 0x0100A500000000000000000000 ⟨[], true⟩))
    = some [.pin .dc false, .pin .cs false, .hw [0xA5], .pin .cs true] := by decide
/-- R255: the engine does not return: BUSY stays true and SEQ is inside the first call. -/
theorem test_hw_stall : statusOf (step (hwMachine 0x0100A500000000000000000000 ⟨[], false⟩)) = some (true, true, false) := by
  decide

/-! ### Witnesses: for every statement with hypotheses, a state and operands that meet all of them -/

/-- An initialised tiny machine with a known picture. -/
def drawn : State := machine tiny [0x12, 0x34, 0x56, 0x78, 0x9A, 0xBC, 0xDE, 0xF0] [0xD8, 0x40]

/-- A machine that waits for the engine in the first call of SENDCMD 0xA5. -/
def waiting : State :=
  { machine hwCfg [] [] with
    busy := true
    req := 0x0100A500000000000000000000
    seq := some ⟨0, 0, 7⟩
    pins := { data := false, clk := false, cs := false, dc := false, rst := false }
    pinTrace := [.pin .dc false, .pin .cs false, .hw [0xA5]]
    engine := ⟨[false], true⟩ }

/-- An initialised machine on an odd width, which no valid CFG has. -/
def oddMachine : State := { drawn with cfg := { tiny with w := 7 } }

theorem witness_drawn_inv : drawn.Inv where
  cfgOk := by decide
  mem := ⟨by decide, by decide, by decide, by decide⟩
  scroll := by decide
  bus := ⟨by decide, by decide, by decide, by decide, by decide, by decide⟩

theorem witness_waiting_inv : waiting.Inv where
  cfgOk := by decide
  mem := ⟨by decide, by decide, by decide, by decide⟩
  scroll := by decide
  bus := ⟨by decide, by decide, by decide, by decide, by decide, by decide⟩

theorem witness_waiting_traces : waiting.TraceInv where
  frames := by decide
  noPartial := by decide
  idle := by decide
  waiting := by
    intro _ p k c h
    have hr : waiting.running = some (planSendcmd 0xA5, 0, sendcmd 0xA5) := rfl
    rw [hr] at h
    cases h
    decide

theorem witness_DecodeOfEncodeIsTheInstruction :
    (Instr.bitmap (-32768) 32767 0xFFFF (-1) 32767 (.raw 15)).wf = true := by decide

theorem witness_UnusedRequestBitsAreIgnored :
    (0x0112AF00000000000000000000 : Request) ≠ 0x0100AF00000000000000000001 ∧
    (0x0112AF00000000000000000000 : Request) &&& usedMask 0x0112AF00000000000000000000
      = 0x0100AF00000000000000000001 &&& usedMask 0x0100AF00000000000000000001 := by decide

theorem witness_StepRunsTheDecodedInstruction :
    (hwMachine 0x0100A500000000000000000000 ⟨[], true⟩).busy = false ∧
    (hwMachine 0x0100A500000000000000000000 ⟨[], true⟩).port = ⟨0x0100A500000000000000000000, true⟩ :: [] ∧
    decode 0x0100A500000000000000000000 = .ok (.sendcmd 0xA5) ∧ State.reset.busy = false ∧ State.reset.port = [] := by
  decide

theorem witness_UnassignedCodeIsRefused :
    (hwMachine 0 ⟨[], true⟩).busy = false ∧ (hwMachine 0 ⟨[], true⟩).port = ⟨0, true⟩ :: [] ∧
    opField 0 ∉ opRows.map Prod.fst := by decide

theorem witness_RequestWhileBusyIsRefused :
    ({ waiting with port := [⟨0, false⟩] } : State).busy = true ∧
    ({ waiting with port := [⟨0, false⟩] } : State).port = ⟨0, false⟩ :: [] := by decide

theorem witness_InitDoneGatesEveryOperation :
    State.reset.ReadyForBegin ∧ State.reset.EngineReturns ∧ Instr.clear ≠ .beginInit ∧ State.reset.initDone = false ∧
    State.reset.busy = false ∧ State.reset.cfgOk = true ∧ drawn.initDone = true ∧ drawn.busy = false ∧
    drawn.cfgOk = true := by decide

theorem witness_ConfigOkGatesEveryOperation :
    (State.construct { tiny with w := 255 } Launch.standard).cfgOk = false ∧
    (State.construct { tiny with w := 255 } Launch.standard).busy = false ∧
    (State.construct { tiny with w := 255 } { Launch.standard with port := [⟨0, true⟩] }).busy = false ∧
    (State.construct { tiny with w := 255 } { Launch.standard with port := [⟨0, true⟩] }).cfgOk = false ∧
    (State.construct { tiny with w := 255 } { Launch.standard with port := [⟨0, true⟩] }).port = ⟨0, true⟩ :: [] ∧
    ∃ t, step State.reset = .next t :=
  ⟨by decide, by decide, by decide, by decide, by decide, _, rfl⟩

/-- Both bus modes have a valid CFG, and the five smallest and largest sizes of item 1. -/
theorem witness_ValidIsTheFiveItems :
    Cfg.standard.valid = true ∧ hwCfg.valid = true ∧ ({ tiny with w := 2, h := 1 } : Cfg).valid = true ∧
    ({ tiny with w := 32766, h := 32767 } : Cfg).valid = true ∧ ({ tiny with h := 32768 } : Cfg).valid = false ∧
    ({ tiny with w := 32768 } : Cfg).valid = false := by decide

/-- BEGIN from reset, and a bitmap whose last source byte is the last of BMP (17 bytes). -/
theorem witness_AdmittedOperationsComplete :
    admission (gateOf .beginInit) State.reset = none ∧ State.reset.EngineReturns ∧ State.reset.cfg.w % 2 = 0 ∧
    admission (gateOf (.bitmap 0 0 16 8 1 .on)) drawn = none ∧ drawn.EngineReturns ∧ drawn.cfg.w % 2 = 0 ∧
    sourceBeyond drawn.cfg (16 : Arg).toNat 8 1 = false := by decide

theorem witness_InvariantStatesNeverFault : drawn.Inv ∧ waiting.Inv := ⟨witness_drawn_inv, witness_waiting_inv⟩

theorem witness_OddWidthStopsThePixelOperations :
    oddMachine.Ready ∧ oddMachine.cfg.w % 2 = 1 ∧ sourceBeyond oddMachine.cfg (0 : Arg).toNat 1 1 = false := by decide

theorem witness_ResetMeetsTheInvariants : Launch.standard.Ok Cfg.standard := ⟨rfl, rfl, rfl, rfl⟩

/-- One step that runs a request, and one in which the engine goes on withholding its answer. -/
theorem witness_StepKeepsTheInvariants :
    (drawn.withFetchWord 104 0x25000000000000000000000000).Inv ∧
    (∃ t, step (drawn.withFetchWord 104 0x25000000000000000000000000) = .next t) ∧
    waiting.Inv ∧ ∃ t, step waiting = .next t :=
  ⟨⟨by decide, ⟨by decide, by decide, by decide, by decide⟩, by decide,
    ⟨by decide, by decide, by decide, by decide, by decide, by decide⟩⟩, ⟨_, rfl⟩, witness_waiting_inv, _, rfl⟩

theorem witness_StepKeepsTheTracesTogether : waiting.Inv ∧ waiting.TraceInv ∧ ∃ t, step waiting = .next t :=
  ⟨witness_waiting_inv, witness_waiting_traces, _, rfl⟩

theorem witness_StepKeepsConfiguration : ∃ t, step (drawn.withFetchWord 104 0x25000000000000000000000000) = .next t :=
  ⟨_, rfl⟩

theorem witness_TracesGrowDataBeforeClock :
    (∃ t, step (drawn.withFetchWord 104 0x0100A500000000000000000000) = .next t) ∧ drawn.cfg.busMode = .bitbang :=
  ⟨⟨_, rfl⟩, by decide⟩

theorem witness_EnginePinsAreNeverBitBanged :
    (hwMachine 0x0100A500000000000000000000 ⟨[], true⟩).cfg.busMode = .hw ∧
    (hwMachine 0x0100A500000000000000000000 ⟨[], true⟩).pinTrace.any PinEvent.isDataOrClk = false ∧
    ∃ t, step (hwMachine 0x0100A500000000000000000000 ⟨[], true⟩) = .next t := ⟨by decide, by decide, _, rfl⟩

theorem witness_OnlyScrollOperationsWriteScroll :
    (∃ t, exec (.sendcmd 0x2F) big = .next t) ∧ writesScroll (.sendcmd 0x2F) = false ∧
    (∃ t, step waiting = .next t) ∧ waiting.operation = some (.sendcmd 0xA5) ∧ writesScroll (.sendcmd 0xA5) = false ∧
    (∃ t, step (hwMachine 0x0100A500000000000000000000 ⟨[], true⟩) = .next t) ∧
    (hwMachine 0x0100A500000000000000000000 ⟨[], true⟩).operation = some (.sendcmd 0xA5) :=
  ⟨⟨_, rfl⟩, rfl, ⟨_, rfl⟩, rfl, rfl, ⟨_, rfl⟩, rfl⟩

theorem witness_OnlyDrawingChangesTheFramebuffer :
    (∃ t, exec (.display false) drawn = .next t) ∧ writesFb (.display false) = false ∧
    (∃ t, step waiting = .next t) ∧ waiting.operation = some (.sendcmd 0xA5) ∧ writesFb (.sendcmd 0xA5) = false :=
  ⟨⟨_, rfl⟩, rfl, ⟨_, rfl⟩, rfl, rfl⟩

theorem witness_ScrollStateChangesNothingElse :
    (∃ t, exec (.display true) drawn = .next t) ∧ ∃ t, step waiting = .next t := ⟨⟨_, rfl⟩, _, rfl⟩

theorem witness_SendcmdSendsOneCommandByte : drawn.Ready ∧ drawn.EngineReturns := by decide
theorem witness_SenddataSendsOneDataByte :
    (hwMachine 0 ⟨[true], true⟩).Ready ∧ (hwMachine 0 ⟨[true], true⟩).EngineReturns := by decide
theorem witness_ShiftIsMsbFirstOrOneTransfer : tiny.busMode = .bitbang ∧ hwCfg.busMode = .hw := by decide
theorem witness_PinLevelsAfterACall : tiny.busMode = .bitbang ∧ hwCfg.busMode = .hw := by decide
theorem witness_PinWritesOfACall : tiny.busMode = .bitbang := by decide
theorem witness_SwitchOperationsSendOneCommand : big.Ready ∧ big.EngineReturns := by decide
theorem witness_SetwinSendsColumnThenRow : big.Ready ∧ big.EngineReturns := by decide
theorem witness_ParameterOperationsPassBytesThrough : big.Ready ∧ big.EngineReturns := by decide
theorem witness_SelgraySendsTheConfiguredTable : big.Ready ∧ big.EngineReturns ∧ big.cfg.valid = true := by decide
theorem witness_CfgscrollSendsTheScrollFrames :
    big.Ready ∧ big.EngineReturns ∧ big.cfg.scrollFrames = .standard := by decide
theorem witness_BeginSendsTheFixedSequence : State.reset.ReadyForBegin ∧ State.reset.EngineReturns := by decide

theorem witness_IndexStaysInTheFramebuffer : tiny.w % 2 = 0 ∧ 7 < tiny.w ∧ 1 < tiny.h := by decide
theorem witness_PixelsHaveTheirOwnNibble :
    tiny.w % 2 = 0 ∧ 7 < tiny.w ∧ idx tiny 7 1 = idx tiny 7 1 ∧ 7 % 2 = 7 % 2 := by decide

/-- In bounds at the last pixel; out of bounds by one on each of the four sides. -/
theorem witness_SetpixelWritesOnePixel :
    drawn.Ready ∧ drawn.cfg.w % 2 = 0 ∧ drawn.fb.wf = true ∧ 7 < drawn.cfg.w ∧ 1 < drawn.cfg.h ∧
    (-1 : Int) < 0 ∧ (drawn.cfg.w : Int) ≤ 8 ∧ (drawn.cfg.h : Int) ≤ 2 ∧
    opField 0x2000030002003A000000000000 = 0x20 ∧ Color.raw 0x2 = .raw (pixel drawn.cfg drawn.fb 1 0) := by decide


/-- The run `VLINE 5, -1, 5`: rows 0 and 1 are written, and byte 0 is the byte of no pixel of the run. -/
theorem witness_VlineWritesTheClippedRun :
    drawn.Ready ∧ drawn.cfg.w % 2 = 0 ∧ drawn.fb.wf = true ∧ (-1 : Int) ≤ 1 ∧ (1 : Int) < -1 + 5 ∧
    ∀ p ∈ vlinePixels drawn.cfg 5 (-1) 5, 0 ≠ idx drawn.cfg p.1.toNat p.2.toNat := by decide

/-- The run `HLINE 6, 0, 10`: columns 6 and 7 are written, and byte 4, the first of the next row, belongs to no pixel of it. -/
theorem witness_HlineWritesTheClippedRun :
    drawn.Ready ∧ drawn.cfg.w % 2 = 0 ∧ drawn.fb.wf = true ∧ (6 : Int) ≤ 7 ∧ (7 : Int) < 6 + 10 ∧
    ∀ p ∈ hlinePixels drawn.cfg 6 0 10, 4 ≠ idx drawn.cfg p.1.toNat p.2.toNat := by decide

theorem witness_HlineByBytesIsHlineByPixels :
    tiny.w % 2 = 0 ∧ drawn.fb.wf = true ∧ (0 : Int) < 4 ∧ (0 : Int) ≤ 1 ∧ (1 : Int) < (tiny.h : Int) := by decide

/-- `BITMAP 1, 0, 0, 5, 2`: a set source bit at (0, 0), a clear one at (2, 0), and the clause of a non-positive size. -/
theorem witness_BitmapDrawsUnderSetBits :
    drawn.Ready ∧ drawn.cfg.w % 2 = 0 ∧ drawn.fb.wf = true ∧ sourceBeyond drawn.cfg (0 : Arg).toNat 5 2 = false ∧
    srcBit drawn.cfg drawn.bmp 0 5 0 0 = true ∧ srcBit drawn.cfg drawn.bmp 0 5 2 0 = false ∧
    sourceBeyond drawn.cfg (0xFFFF : Arg).toNat 0 5 = false := by decide

theorem witness_BitmapBeyondSourceIsRefused :
    drawn.Ready ∧ drawn.cfg.w % 2 = 0 ∧ drawn.cfg.bmpSize.val ≤ 16 + srcBitIndex drawn.cfg.bmpRowMode 8 0 1 / 8 := by decide

theorem witness_FillWritesEveryByte :
    drawn.Ready ∧ drawn.EngineReturns ∧ drawn.fb.within drawn.cfg.fbSize = true ∧ drawn.cfg.w % 2 = 0 := by decide
theorem witness_ClearWritesZeroToEveryByte : drawn.Ready ∧ drawn.fb.within drawn.cfg.fbSize = true := by decide
theorem witness_PrimitivesTransmitNothing : ∃ t, exec .clear drawn = .next t := ⟨_, rfl⟩
theorem witness_DisplaySendsTheWholeFramebuffer :
    drawn.Ready ∧ drawn.EngineReturns ∧ drawn.fb.within drawn.cfg.fbSize = true := by decide
theorem witness_DisplayPinWrites : drawn.Ready ∧ drawn.cfg.busMode = .bitbang := by decide
theorem witness_SetwinDoesNotChangeDisplay : drawn.Ready ∧ drawn.EngineReturns := by decide
theorem witness_StartScrollSendsAndActivates :
    big.Ready ∧ big.EngineReturns ∧
    (Instr.startscrolldiagleft 0 7 = .startscrolldiagleft 0 7 ∧ (⟨true, true, 0, 7⟩ : ScrollCfg) = ⟨true, true, 0, 7⟩) := by
  decide
theorem witness_StopScrollSendsAndDeactivates : big.Ready ∧ big.EngineReturns := by decide
theorem witness_InvertdisplaySendsTheModeCommand : big.Ready ∧ big.EngineReturns := by decide
theorem witness_DimSendsTheDimFrames : big.Ready ∧ big.EngineReturns ∧ big.cfg.dimFrames = .standard := by decide

/-- SETCONTRAST 0x7F with an engine that returns from the first transfer and never from the second. -/
theorem witness_StalledTransferHangs :
    (hwMachine 0x13007F00000000000000000000 ⟨List.replicate 1 true, false⟩).busy = false ∧
    (hwMachine 0x13007F00000000000000000000 ⟨List.replicate 1 true, false⟩).cfg.busMode = .hw ∧
    decode 0x13007F00000000000000000000 = .ok (.setcontrast 0x7F) ∧
    admission (gateOf (.setcontrast 0x7F)) (hwMachine 0x13007F00000000000000000000 ⟨List.replicate 1 true, false⟩) = none ∧
    0 < (planOf (.setcontrast 0x7F) (hwMachine 0x13007F00000000000000000000 ⟨[], false⟩)).calls.length ∧
    1 < (planOf (.setcontrast 0x7F)
      (hwMachine 0x13007F00000000000000000000 ⟨List.replicate 1 true, false⟩)).calls.length ∧
    drawn.cfg.busMode = .bitbang ∧ ∃ t, exec .clear drawn = .next t :=
  ⟨by decide, by decide, by decide, by decide, by decide, by decide, by decide, _, rfl⟩

/-- SETCONTRAST 0x7F, late in its second transfer; a word that is refused; and a pixel on an odd width, which faults. -/
theorem witness_StallOnlyDelays :
    (hwMachine 0x13007F00000000000000000000 ⟨[true, false, false], true⟩).busy = false ∧
    (hwMachine 0x13007F00000000000000000000 ⟨[true, false, false], true⟩).port
      = [⟨0x13007F00000000000000000000, true⟩] ∧
    (hwMachine 0x13007F00000000000000000000 ⟨[true, false, false], true⟩).engine
      = { script := [true, false, false], tail := true } ∧
    (∃ t, step (hwMachine 0x13007F00000000000000000000 ⟨[], true⟩) = .next t) ∧
    step (hwMachine 0 ⟨[], true⟩) = .refused (.unassignedOp 0) ∧
    step { oddMachine with port := [⟨0x20000000000010000000000000, true⟩] } = .fault .oddWidth :=
  ⟨by decide, by decide, by decide, ⟨_, rfl⟩, rfl, rfl⟩

/-- A machine that waits in the second call of SETCONTRAST 0x7F (frames C(C1), D(7F)), the first frame already sent. -/
def waitingSecond (engine : Engine) : State :=
  { machine hwCfg [] [] with
    busy := true
    req := 0x13007F00000000000000000000
    seq := some ⟨1, 0, 7⟩
    trace := [evC 0xC1]
    engine := engine }

/-- R255: the return ends the second call and completes the operation. -/
theorem test_hw_resume : traceOf (step (waitingSecond ⟨[], true⟩)) = some [evC 0xC1, evD 0x7F] ∧
    statusOf (step (waitingSecond ⟨[], true⟩)) = some (false, true, true) := by decide

theorem witness_EngineReturnResumesTheOperation :
    (waitingSecond ⟨[], true⟩).busy = true ∧ (waitingSecond ⟨[], true⟩).cfg.busMode = .hw ∧
    (waitingSecond ⟨[], true⟩).impatient = false ∧ decode (waitingSecond ⟨[], true⟩).req = .ok (.setcontrast 0x7F) ∧
    (waitingSecond ⟨[], true⟩).seq = some ⟨1, 0, 7⟩ ∧
    (planOf (.setcontrast 0x7F) (waitingSecond ⟨[], true⟩)).calls[1]? = some (senddata 0x7F) ∧
    (waitingSecond ⟨[], true⟩).EngineReturns ∧ (waitingSecond ⟨[false], true⟩).engine.poll.1 = false := by decide

end Sys2Proof.Tests
end

/-! ## What steps keep: the proofs of the statements of spec 10_state.md

First the layer the proofs share: what `exec`, `step` and the rest of an operation can do, said once, and what each keeps.
Then the statements, each settled by a short use of that layer. -/

namespace Sys2Proof.Machine

/-! ### What `exec` answers -/

/-- What an admitted operation still needs of CFG to run: an even width for the pixel operations (20_memory.md R54), and for
BITMAP its source inside BMP (R55). -/
def runsOn (cfg : Cfg) : Instr → Bool
  | .setpixel .. | .vline .. | .hline .. => decide (cfg.w % 2 = 0)
  | .bitmap _ _ src w h _ => !sourceBeyond cfg src.toNat w h && decide (cfg.w % 2 = 0)
  | _ => true

/-- An operation answers a next state exactly when it is admitted and CFG fits it: its plan performed. -/
theorem exec_next_iff {i : Instr} {s t : State} :
    exec i s = .next t ↔ admission (gateOf i) s = none ∧ runsOn s.cfg i = true ∧ t = perform (planOf i s) s := by
  cases i
  case setpixel | vline | hline => exact runPixelOp_next.trans (by simp [runsOn, gateOf, planOf])
  case bitmap x y src w h color =>
    cases ha : admission .afterBegin s <;> cases hs : sourceBeyond s.cfg src.toNat w h <;>
      simp [exec, execBitmap, runPixelOp_next, runsOn, gateOf, planOf, ha, hs]
  all_goals exact runOp_next.trans (by simp [runsOn, gateOf, planOf])

/-- An operation that is not admitted is refused, for one reason or another. -/
theorem exec_refused_of_not_admitted {i : Instr} {s : State} (h : admission (gateOf i) s ≠ none) :
    ∃ r, exec i s = .refused r :=
  (Option.ne_none_iff_exists'.mp h).imp fun _ hr => exec_refused hr

/-- An operation is admitted only with CFG_OK true (R30). -/
theorem cfgOk_of_admitted {g : Gate} {s : State} (h : admission g s = none) : s.cfgOk = true := by
  cases g with
  | afterBegin => exact (admission_afterBegin.mp h).2.1
  | beforeBegin => exact (admission_beforeBegin.mp h).2.1

theorem admission_of_busy {g : Gate} {s : State} (hb : s.busy = true) : admission g s = some .requestWhileBusy := by
  simp [admission, hb]

theorem admission_of_not_cfgOk {g : Gate} {s : State} (hb : s.busy = false) (hc : s.cfgOk = false) :
    admission g s = some .configInvalid := by
  simp [admission, hb, hc]

/-! ### What a step answers -/

/-- With no request the idle block waits (R271). -/
theorem step_idle {s : State} (hb : s.busy = false) (hp : s.port = []) : step s = .next s := by
  simp [step, hb, hp]

/-- A request with an unassigned code is refused by name (R86). -/
theorem step_unassigned {s : State} {r : HostReq} {rest : List HostReq} {op : Byte} (hb : s.busy = false)
    (hp : s.port = r :: rest) (hd : decode r.word = .error (.unassignedOp op)) :
    step s = .refused (.unassignedOp op) := by
  simp [step, hb, hp, hd]

/-- While BUSY a request that does not wait is refused (R28). -/
theorem step_impatient {s : State} (hb : s.busy = true) (hi : s.impatient = true) :
    step s = .refused .requestWhileBusy := by
  simp [step, hb, hi]

/-- While BUSY the engine is polled: its return ends the call under way and the operation goes on (R255). -/
theorem step_engine {s : State} {p : Plan} {k : Nat} {c : Call} (hb : s.busy = true) (hi : s.impatient = false)
    (hr : s.running = some (p, k, c)) :
    step s = .next (if s.pollTransfer.1 then
        continueWith p (k + 1) (p.calls.drop (k + 1)) (s.pollTransfer.2.endCall c) else s.pollTransfer.2) := by
  rcases hq : s.pollTransfer with ⟨_ | _, s'⟩ <;> simp [step, engineStep, hb, hi, hr, hq]

/-! ### What the rest of an operation does -/

/-- `t` is `s` after exactly `calls` have been sent, each with its pin writes and its frame. -/
structure State.SentCalls (s t : State) (calls : List Call) : Prop extends s.SameCore t where
  trace : t.trace = s.trace ++ calls.map Call.frame
  pinTrace : t.pinTrace = s.pinTrace ++ calls.flatMap (Call.events s.cfg)
  pins : t.pins = (calls.flatMap (Call.events s.cfg)).foldl Pins.apply s.pins

/-- A run that completes has sent all its calls. -/
theorem runCalls_done : ∀ (cs : List Call) (k : Nat) (s s' : State), runCalls k cs s = (true, s') → s.SentCalls s' cs
  | [], _, s, s', h => by
    cases h
    exact ⟨State.SameCore.refl s, by simp, by simp, rfl⟩
  | c :: rest, k, s, s', h => by
    have hcore := runCalls_same (c :: rest) k s
    rw [h] at hcore
    obtain ⟨e, he⟩ := (s.startCall k c).pollTransfer_snd
    simp only [runCalls] at h
    split at h
    · next s1 hp =>
      rw [hp] at he
      obtain rfl : s1 = { s.startCall k c with engine := e } := he
      obtain ⟨_, htrace, hpinTrace, hpins⟩ := runCalls_done rest (k + 1) _ s' h
      exact ⟨hcore, by simp [htrace], by simp [hpinTrace, Call.events], by simp [hpins, Call.events]⟩
    · cases h

/-- What the rest of an operation does: it completes with all its calls sent, or it is left waiting in one of them, which
happens in mode HW only. -/
theorem continueWith_cases (p : Plan) (k : Nat) (cs : List Call) (s : State) :
    (∃ u, s.SentCalls u cs ∧ continueWith p k cs s = u.complete p) ∨
    (s.cfg.busMode = .hw ∧ ∃ j c u e, cs[j]? = some c ∧ s.SentCalls u (cs.take j) ∧
      continueWith p k cs s = { u.startCall (k + j) c with engine := e }) := by
  rcases hr : runCalls k cs s with ⟨_ | _, s'⟩
  · obtain ⟨hhw, j, c, hc, -, u, hu, htr, hpt, hpins, e, rfl⟩ := runCalls_waits cs k s s' hr
    exact .inr ⟨hhw, j, c, u, e, hc, ⟨hu, htr, hpt, hpins⟩, by simp [continueWith, hr]⟩
  · exact .inl ⟨s', runCalls_done cs k s s' hr, by simp [continueWith, hr]⟩

/-! ### What a step can do -/

/-- A step that answers a next state waits for a request, performs an admitted one, or polls the engine; a return of the engine
ends the call under way, and the rest of its operation follows. -/
theorem step_cases {s t : State} (h : step s = .next t) :
    (s.busy = false ∧ s.port = [] ∧ t = s) ∨
    (s.busy = false ∧ ∃ r rest i, s.port = r :: rest ∧ decode r.word = .ok i ∧
      admission (gateOf i) (s.latch r rest) = none ∧ t = perform (planOf i s) (s.latch r rest)) ∨
    (s.busy = true ∧ ∃ i k c e, decode s.req = .ok i ∧ (planOf i s).calls[k]? = some c ∧
      (t = { s with engine := e } ∨
        t = continueWith (planOf i s) (k + 1) ((planOf i s).calls.drop (k + 1))
          (State.endCall { s with engine := e } c))) := by
  obtain hidle | ⟨hb, r, rest, i, hp, hd, hx⟩ | ⟨hb, -, p, k, c, hr, hpoll⟩ := step_next h
  · exact .inl hidle
  · obtain ⟨ha, rfl⟩ := exec_next hx
    exact .inr (.inl ⟨hb, r, rest, i, hp, hd, ha, by rw [planOf_congr i (s := s) (u := s.latch r rest) rfl rfl rfl]⟩)
  · obtain ⟨i, hd, rfl, hc, -⟩ := State.running_some hr
    obtain ⟨e, he⟩ := s.pollTransfer_snd
    refine .inr (.inr ⟨hb, i, k, c, e, hd, hc, hpoll.imp ?_ ?_⟩)
    · rintro ⟨s', hs', rfl⟩
      rw [← he, hs']
    · rintro ⟨s', hs', rfl⟩
      rw [← he, hs']

/-- No step changes CFG, CFG_OK, BMP or the record of the reset signal. -/
theorem step_keeps {s t : State} (h : step s = .next t) :
    t.cfg = s.cfg ∧ t.cfgOk = s.cfgOk ∧ t.bmp = s.bmp ∧ t.pins.rst = s.pins.rst := by
  obtain ⟨-, -, rfl⟩ | ⟨-, r, rest, i, -, -, -, rfl⟩ | ⟨-, i, k, c, e, -, -, rfl | rfl⟩ := step_cases h
  · exact ⟨rfl, rfl, rfl, rfl⟩
  · exact continueWith_keeps i s _ _ _
  · exact ⟨rfl, rfl, rfl, rfl⟩
  · exact continueWith_keeps i s _ _ _

/-! ### Idle levels of the lines (R34, R117) -/

/-- CS is inactive, and in mode BITBANG so is CLK. -/
structure Pins.Idle (cfg : Cfg) (p : Pins) : Prop where
  cs : p.cs = !cfg.csActive
  clk : cfg.busMode = .bitbang → p.clk = !cfg.clkActive

/-- A call leaves CS asserted from its opening on. -/
theorem Call.opening_cs (cfg : Cfg) (c : Call) (p : Pins) : ((c.opening cfg).foldl Pins.apply p).cs = cfg.csActive := by
  simp [Call.opening, shift_cs, Pins.apply]

theorem Call.opening_clk {cfg : Cfg} (hb : cfg.busMode = .bitbang) (c : Call) {p : Pins} (hp : p.clk = !cfg.clkActive) :
    ((c.opening cfg).foldl Pins.apply p).clk = !cfg.clkActive := by
  simp only [Call.opening, List.foldl_append]
  exact shift_clk hb c.bytes _ hp

/-- A whole call leaves the lines idle, if they were before. -/
theorem Pins.Idle.call {cfg : Cfg} {p : Pins} (h : p.Idle cfg) (c : Call) :
    ((c.events cfg).foldl Pins.apply p).Idle cfg := by
  rw [Call.events, List.foldl_append]
  exact ⟨rfl, fun hb => Call.opening_clk hb c (h.clk hb)⟩

theorem Pins.Idle.calls {cfg : Cfg} : ∀ (cs : List Call) {p : Pins}, p.Idle cfg →
    ((cs.flatMap (Call.events cfg)).foldl Pins.apply p).Idle cfg
  | [], _, h => h
  | c :: rest, _, h => by
    rw [List.flatMap_cons, List.foldl_append]
    exact Pins.Idle.calls rest (h.call c)

/-! ### What the last act of an operation keeps -/

/-- The memories stay canonical and inside their extent. Only the pixel operations need an even width, and they send nothing,
so that an operation with a call to wait in needs none. -/
theorem planOf_finish_memInv (i : Instr) {s u : State} (hc : u.cfg = s.cfg)
    (hw : (planOf i s).calls = [] → s.cfg.w % 2 = 0) (h : u.MemInv) : ((planOf i s).finish u).MemInv := by
  obtain ⟨hwf, hin, hbwf, hbin⟩ := h
  cases i
  case setpixel x y color => exact ⟨setpix_wf hwf, hc ▸ setpix_within (hw rfl) (hc ▸ hin), hbwf, hbin⟩
  case vline | hline | bitmap => exact ⟨setpixels_wf _ hwf, hc ▸ setpixels_within (hw rfl) _ (hc ▸ hin), hbwf, hbin⟩
  case fill level => exact ⟨Mem.fill_wf _ (bothNibbles level), hc ▸ Mem.fill_within _ (bothNibbles level), hbwf, hbin⟩
  case clear => exact ⟨Mem.fill_wf s.cfg.fbSize 0x00#8, hc ▸ Mem.fill_within s.cfg.fbSize 0x00#8, hbwf, hbin⟩
  case display flag =>
    cases flag
    · exact ⟨hwf, hin, hbwf, hbin⟩
    · exact ⟨Mem.fill_wf u.cfg.fbSize 0x00#8, Mem.fill_within u.cfg.fbSize 0x00#8, hbwf, hbin⟩
  all_goals exact ⟨hwf, hin, hbwf, hbin⟩

/-- SCROLLCFG stays none exactly when SCROLL is INACTIVE (R26). -/
theorem planOf_finish_scrollInv (i : Instr) (s : State) {u : State} (h : u.ScrollInv) :
    ((planOf i s).finish u).ScrollInv := by
  cases i
  case startscrollright | startscrollleft | startscrolldiagright | startscrolldiagleft =>
    simp [State.ScrollInv, planOf, planStartscrollright, planStartscrollleft, planStartscrolldiagright,
      planStartscrolldiagleft, scrollPlan]
  case stopscroll => simp [State.ScrollInv, planOf, planStopscroll]
  case display flag => cases flag <;> exact h
  all_goals exact h

/-! ### The invariants through an operation -/

/-- `s` is inside operation `i` and between two of its calls: what the rest of the operation starts from. -/
structure State.BetweenCalls (i : Instr) (s : State) : Prop where
  busy : s.busy = true
  req : decode s.req = .ok i
  cfgOk : s.cfgOk = s.cfg.valid
  mem : s.MemInv
  scroll : s.ScrollInv
  pins : s.pins.Idle s.cfg

theorem State.MemInv.of_sameCore {s u : State} (h : s.MemInv) (hu : s.SameCore u) : u.MemInv := by
  obtain ⟨hwf, hin, hbwf, hbin⟩ := h
  constructor <;> simpa [hu.cfg, hu.fb, hu.bmp]

/-- Sending whole calls stays between two calls. -/
theorem State.BetweenCalls.sent {i : Instr} {s u : State} {cs : List Call} (h : s.BetweenCalls i)
    (hu : s.SentCalls u cs) : u.BetweenCalls i where
  busy := hu.busy.trans h.busy
  req := by rw [hu.req, h.req]
  cfgOk := by rw [hu.cfgOk, hu.cfg, h.cfgOk]
  mem := h.mem.of_sameCore hu.toSameCore
  scroll := by simpa [State.ScrollInv, hu.scroll, hu.scrollCfg] using h.scroll
  pins := by rw [hu.cfg, hu.pins]; exact h.pins.calls cs

/-- Completion meets the invariants: the lines are idle since the last call's end. -/
theorem State.BetweenCalls.complete_inv {i : Instr} {s u : State} (h : u.BetweenCalls i) (hc : u.cfg = s.cfg)
    (hw : (planOf i s).calls = [] → s.cfg.w % 2 = 0) : (u.complete (planOf i s)).Inv := by
  have hf := planOf_finish i s { u with busy := false, seq := none }
  have hmem : State.MemInv { u with busy := false, seq := none } := ⟨h.mem.fbWf, h.mem.fbWithin, h.mem.bmpWf, h.mem.bmpWithin⟩
  have hbusy : (u.complete (planOf i s)).busy ≠ true := by simp [State.complete, hf.busy]
  refine ⟨?_, planOf_finish_memInv i hc hw hmem, planOf_finish_scrollInv i s h.scroll, ?_⟩
  · simpa [State.complete, hf.cfgOk, hf.cfg] using h.cfgOk
  · exact
      { idleCs := fun _ => by simpa [State.complete, hf.pins, hf.cfg] using h.pins.cs
        idleClk := fun _ hb => by
          simp only [State.complete, hf.pins, hf.cfg] at hb ⊢
          exact h.pins.clk hb
        idleSeq := fun _ => hf.seq
        waitHw := fun hb => absurd hb hbusy
        waitCs := fun hb => absurd hb hbusy
        waitCall := fun hb => absurd hb hbusy }

/-- The operation under way depends on CFG, FB, BMP, REQ and SEQ alone. -/
theorem State.running_congr {s u : State} (hc : u.cfg = s.cfg) (hf : u.fb = s.fb) (hb : u.bmp = s.bmp)
    (hr : u.req = s.req) (hs : u.seq = s.seq) : u.running = s.running := by
  simp only [State.running, hr, hs, planOf_congr _ hc hf hb]

/-- A transport call is under way where REQ names an operation and SEQ one of its calls. -/
theorem State.running_isSome {s : State} {i : Instr} {p : Plan} {pos : SeqPos} {c : Call} (hd : decode s.req = .ok i)
    (hs : s.seq = some pos) (hp : planOf i s = p) (hc : p.calls[pos.call]? = some c) : s.running.isSome = true := by
  simp [State.running, hd, hs, hp, hc]

/-- Waiting in a call meets the invariants: CS is asserted, and REQ and SEQ name the call. -/
theorem State.BetweenCalls.waiting_inv {i : Instr} {u : State} {k : Nat} {c : Call} (h : u.BetweenCalls i)
    (hhw : u.cfg.busMode = .hw) (hc : (planOf i u).calls[k]? = some c) (e : Engine) :
    State.Inv { u.startCall k c with engine := e } where
  cfgOk := h.cfgOk
  mem := ⟨h.mem.fbWf, h.mem.fbWithin, h.mem.bmpWf, h.mem.bmpWithin⟩
  scroll := h.scroll
  bus :=
    { idleCs := fun hb => by simp [h.busy] at hb
      idleClk := fun hb => by simp [h.busy] at hb
      idleSeq := fun hb => by simp [h.busy] at hb
      waitHw := fun _ => hhw
      waitCs := fun _ => Call.opening_cs _ _ _
      waitCall := fun _ => State.running_isSome h.req rfl (planOf_congr i (s := u) rfl rfl rfl) hc }

/-- The rest of an operation, from between two of its calls, ends where the invariants hold. -/
theorem State.BetweenCalls.continueWith_inv {i : Instr} {s v : State} {k : Nat} (h : v.BetweenCalls i)
    (hp : planOf i v = planOf i s) (hc : v.cfg = s.cfg) (hw : (planOf i s).calls = [] → s.cfg.w % 2 = 0) :
    (continueWith (planOf i s) k ((planOf i s).calls.drop k) v).Inv := by
  obtain ⟨u, hu, he⟩ | ⟨hhw, j, c, u, e, hj, hu, he⟩ :=
    continueWith_cases (planOf i s) k ((planOf i s).calls.drop k) v
  · rw [he]
    exact (h.sent hu).complete_inv (hu.cfg.trans hc) hw
  · rw [he]
    have hpu : planOf i u = planOf i s := (planOf_congr i hu.cfg hu.fb hu.bmp).trans hp
    exact (h.sent hu).waiting_inv (by rw [hu.cfg]; exact hhw) (by rw [hpu, ← hj, List.getElem?_drop]) e

/-- A valid CFG has an even width (R242). -/
theorem Cfg.width_even_of_valid {cfg : Cfg} (h : cfg.valid = true) : cfg.w % 2 = 0 := by
  simp only [Cfg.valid, Cfg.geometryOk, Bool.and_eq_true, decide_eq_true_eq, and_assoc] at h
  obtain ⟨hw, -⟩ := h
  exact hw

/-- An accepted request starts its operation between two calls, in an idle block that meets the invariants. -/
theorem State.Inv.accepted {s : State} (h : s.Inv) (hb : s.busy = false) {r : HostReq} {i : Instr}
    (hd : decode r.word = .ok i) (rest : List HostReq) (p : Plan) : ((s.latch r rest).accept p).BetweenCalls i where
  busy := rfl
  req := hd
  cfgOk := h.cfgOk
  mem := ⟨h.mem.fbWf, h.mem.fbWithin, h.mem.bmpWf, h.mem.bmpWithin⟩
  scroll := h.scroll
  pins := ⟨h.bus.idleCs hb, h.bus.idleClk hb⟩

/-- The engine's return ends the call under way: the operation is between two calls again. -/
theorem State.Inv.returned {s : State} (h : s.Inv) (hb : s.busy = true) {i : Instr} (hd : decode s.req = .ok i)
    (c : Call) (e : Engine) : (State.endCall { s with engine := e } c).BetweenCalls i where
  busy := hb
  req := hd
  cfgOk := h.cfgOk
  mem := ⟨h.mem.fbWf, h.mem.fbWithin, h.mem.bmpWf, h.mem.bmpWithin⟩
  scroll := h.scroll
  pins := ⟨rfl, fun hm => by cases (h.bus.waitHw hb).symm.trans hm⟩

/-- An answer "not yet" keeps the invariants: only the engine's answers change. -/
theorem State.Inv.polled {s : State} (h : s.Inv) (e : Engine) : State.Inv { s with engine := e } := by
  obtain ⟨hok, ⟨hwf, hin, hbwf, hbin⟩, hscroll, hcs, hclk, hseq, hhw, hwcs, hcall⟩ := h
  exact ⟨hok, ⟨hwf, hin, hbwf, hbin⟩, hscroll, hcs, hclk, hseq, hhw, hwcs,
    fun hb => by rw [State.running_congr (s := s) (u := { s with engine := e }) rfl rfl rfl rfl rfl, hcall hb]⟩

/-- Settles O18, by the three things a step can do: wait, accept a request, or let the engine answer. The last two run the rest
of an operation from between two of its calls. -/
theorem stepKeepsTheInvariants : Obligations.StepKeepsTheInvariants := by
  intro s t h hstep
  obtain ⟨-, -, rfl⟩ | ⟨hb, r, rest, i, -, hd, ha, rfl⟩ | ⟨hb, i, k, c, e, hd, hc, rfl | rfl⟩ := step_cases hstep
  · exact h
  · have hw : s.cfg.w % 2 = 0 := Cfg.width_even_of_valid (h.cfgOk.symm.trans (cfgOk_of_admitted ha))
    exact (h.accepted hb hd rest _).continueWith_inv (k := 0) (planOf_congr i rfl rfl rfl) rfl (fun _ => hw)
  · exact h.polled e
  · exact (h.returned hb hd c e).continueWith_inv (planOf_congr i rfl rfl rfl) rfl (fun hn => by simp [hn] at hc)


/-! ### The order of pin writes (R118) -/

/-- Events without a clock assertion are in data-before-clock order. -/
theorem dataBeforeClock_of_not_mem {cfg : Cfg} {evs : List PinEvent} (h : PinEvent.pin .clk cfg.clkActive ∉ evs) :
    DataBeforeClock cfg evs :=
  fun _ _ he => absurd (he ▸ List.mem_append_right _ List.mem_cons_self) h

theorem DataBeforeClock.append {cfg : Cfg} {a b : List PinEvent} (ha : DataBeforeClock cfg a)
    (hb : DataBeforeClock cfg b) : DataBeforeClock cfg (a ++ b) := by
  intro pre post he
  obtain ⟨mid, rfl, hmid⟩ | ⟨mid, rfl, hmid⟩ := List.append_eq_append_iff.mp he
  · obtain ⟨⟨pre', l, rfl⟩, hpost⟩ := hb mid post hmid
    exact ⟨⟨a ++ pre', l, by simp⟩, hpost⟩
  · cases mid with
    | nil => exact absurd (hb [] post hmid.symm).1 (by simp)
    | cons x mid =>
      obtain ⟨rfl, rfl⟩ := List.cons.inj hmid
      obtain ⟨hpre, post', rfl⟩ := ha pre mid rfl
      exact ⟨hpre, post' ++ b, rfl⟩

theorem DataBeforeClock.flatMap {α : Type} {cfg : Cfg} {f : α → List PinEvent} (h : ∀ x, DataBeforeClock cfg (f x)) :
    ∀ xs : List α, DataBeforeClock cfg (xs.flatMap f)
  | [] => dataBeforeClock_of_not_mem List.not_mem_nil
  | x :: xs => by
    rw [List.flatMap_cons]
    exact (h x).append (DataBeforeClock.flatMap h xs)

/-- One bit on the wire: its one clock assertion stands between a DATA write and the clock's de-assertion (R114). -/
theorem dataBeforeClock_bitEvents (cfg : Cfg) (l : Level) : DataBeforeClock cfg (bitEvents cfg l) := by
  rintro (_ | ⟨e₁, _ | ⟨e₂, _ | ⟨e₃, pre⟩⟩⟩) post he <;> simp [bitEvents] at he
  obtain ⟨rfl, rfl⟩ := he
  exact ⟨⟨[], l, rfl⟩, [], rfl⟩

theorem dataBeforeClock_shift (cfg : Cfg) (bs : List Byte) : DataBeforeClock cfg (shift cfg bs) := by
  cases hm : cfg.busMode with
  | hw => exact dataBeforeClock_of_not_mem (by simp [shift, hm])
  | bitbang =>
    simp only [shift, hm, shiftBitbang]
    exact DataBeforeClock.flatMap (fun b => DataBeforeClock.flatMap (dataBeforeClock_bitEvents cfg) (wireBits b)) bs

theorem dataBeforeClock_closing (cfg : Cfg) : DataBeforeClock cfg (closing cfg) :=
  dataBeforeClock_of_not_mem (by simp [closing])

theorem Call.dataBeforeClock_opening (cfg : Cfg) (c : Call) : DataBeforeClock cfg (c.opening cfg) :=
  (dataBeforeClock_of_not_mem (by simp)).append (dataBeforeClock_shift cfg c.bytes)

theorem Call.dataBeforeClock_events (cfg : Cfg) (c : Call) : DataBeforeClock cfg (c.events cfg) :=
  (c.dataBeforeClock_opening cfg).append (dataBeforeClock_closing cfg)

/-! ### The traces only grow (R33) -/

/-- Both traces of `t` continue those of `s`, the pin-level one in data-before-clock order. -/
structure State.Extends (s t : State) : Prop where
  cfg : t.cfg = s.cfg
  trace : ∃ fs, t.trace = s.trace ++ fs
  pinTrace : ∃ evs, t.pinTrace = s.pinTrace ++ evs ∧ DataBeforeClock s.cfg evs

/-- No event at all is in data-before-clock order. -/
theorem State.Extends.of_pinTrace_eq {s t : State} (hc : t.cfg = s.cfg) (ht : ∃ fs, t.trace = s.trace ++ fs)
    (hp : t.pinTrace = s.pinTrace) : s.Extends t :=
  ⟨hc, ht, [], by simp [hp], dataBeforeClock_of_not_mem List.not_mem_nil⟩

theorem State.Extends.trans {s t u : State} (h : s.Extends t) (h' : t.Extends u) : s.Extends u := by
  obtain ⟨hc, ⟨fs, hf⟩, evs, he, hd⟩ := h
  obtain ⟨hc', ⟨fs', hf'⟩, evs', he', hd'⟩ := h'
  exact ⟨hc'.trans hc, ⟨fs ++ fs', by simp [hf', hf]⟩, evs ++ evs', by simp [he', he], hd.append (hc ▸ hd')⟩

theorem State.SentCalls.extends {s u : State} {cs : List Call} (h : s.SentCalls u cs) : s.Extends u :=
  ⟨h.cfg, ⟨_, h.trace⟩, _, h.pinTrace, DataBeforeClock.flatMap (Call.dataBeforeClock_events s.cfg) cs⟩

/-- The rest of an operation only adds to the traces, whether it completes or waits. -/
theorem continueWith_extends (i : Instr) (s v : State) (k : Nat) (cs : List Call) :
    v.Extends (continueWith (planOf i s) k cs v) := by
  obtain ⟨u, hu, he⟩ | ⟨-, j, c, u, e, -, hu, he⟩ := continueWith_cases (planOf i s) k cs v <;> rw [he]
  · have hf := planOf_finish i s { u with busy := false, seq := none }
    exact hu.extends.trans (.of_pinTrace_eq hf.cfg ⟨[], by simp [State.complete, hf.trace]⟩ hf.pinTrace)
  · exact hu.extends.trans ⟨rfl, ⟨[], by simp⟩, _, rfl, c.dataBeforeClock_opening u.cfg⟩

theorem step_extends {s t : State} (h : step s = .next t) : s.Extends t := by
  obtain ⟨-, -, rfl⟩ | ⟨-, r, rest, i, -, -, -, rfl⟩ | ⟨-, i, k, c, e, -, -, rfl | rfl⟩ := step_cases h
  · exact .of_pinTrace_eq rfl ⟨[], by simp⟩ rfl
  · have hacc : s.Extends ((s.latch r rest).accept (planOf i s)) := .of_pinTrace_eq rfl ⟨_, rfl⟩ rfl
    exact hacc.trans (continueWith_extends i s _ _ _)
  · exact .of_pinTrace_eq rfl ⟨[], by simp⟩ rfl
  · have hend : s.Extends (State.endCall { s with engine := e } c) :=
      ⟨rfl, ⟨_, rfl⟩, _, rfl, dataBeforeClock_closing s.cfg⟩
    exact hend.trans (continueWith_extends i s _ _ _)

/-! ### Nothing reads SCROLL or SCROLLCFG (R226) -/

/-- `s` with other values in SCROLL and SCROLLCFG. -/
def State.withScroll (s : State) (a : ScrollState) (b : Option ScrollCfg) : State := { s with scroll := a, scrollCfg := b }

theorem State.pollTransfer_withScroll (s : State) (a : ScrollState) (b : Option ScrollCfg) :
    (s.withScroll a b).pollTransfer = (s.pollTransfer.1, s.pollTransfer.2.withScroll a b) := by
  cases hm : s.cfg.busMode with
  | hw => rw [State.pollTransfer_hw hm, State.pollTransfer_hw (s := s.withScroll a b) hm]; rfl
  | bitbang => rw [State.pollTransfer_bitbang hm, State.pollTransfer_bitbang (s := s.withScroll a b) hm]

theorem runCalls_withScroll (a : ScrollState) (b : Option ScrollCfg) : ∀ (cs : List Call) (k : Nat) (s : State),
    runCalls k cs (s.withScroll a b) = ((runCalls k cs s).1, (runCalls k cs s).2.withScroll a b)
  | [], _, _ => rfl
  | c :: rest, k, s => by
    have hp := (s.startCall k c).pollTransfer_withScroll a b
    have hs : (s.withScroll a b).startCall k c = (s.startCall k c).withScroll a b := rfl
    rcases hq : (s.startCall k c).pollTransfer with ⟨_ | _, s'⟩ <;> simp only [runCalls, hs, hp, hq]
    exact runCalls_withScroll a b rest (k + 1) (s'.endCall c)

/-- The last act of an operation writes SCROLL and SCROLLCFG at most as it would have, and the rest the same. -/
theorem planOf_finish_withScroll (i : Instr) (s u : State) (a : ScrollState) (b : Option ScrollCfg) :
    ((planOf i s).finish (u.withScroll a b)).withScroll ((planOf i s).finish u).scroll ((planOf i s).finish u).scrollCfg
      = (planOf i s).finish u := by
  cases i
  case display flag => cases flag <;> rfl
  all_goals rfl

theorem continueWith_withScroll (i : Instr) (s v : State) (k : Nat) (cs : List Call) (a : ScrollState)
    (b : Option ScrollCfg) :
    (continueWith (planOf i s) k cs (v.withScroll a b)).withScroll (continueWith (planOf i s) k cs v).scroll
      (continueWith (planOf i s) k cs v).scrollCfg = continueWith (planOf i s) k cs v := by
  rcases hr : runCalls k cs v with ⟨_ | _, v'⟩ <;> simp only [continueWith, runCalls_withScroll, hr]
  · rfl
  · exact planOf_finish_withScroll i s { v' with busy := false, seq := none } a b

/-- An operation answers the same but for the two fields. -/
theorem exec_withScroll {i : Instr} {s t : State} (h : exec i s = .next t) (a : ScrollState) (b : Option ScrollCfg) :
    ∃ t', exec i (s.withScroll a b) = .next t' ∧ t'.withScroll t.scroll t.scrollCfg = t := by
  obtain ⟨ha, hr, rfl⟩ := exec_next_iff.mp h
  refine ⟨_, exec_next_iff.mpr ⟨ha, hr, rfl⟩, ?_⟩
  rw [planOf_congr i (s := s) (u := s.withScroll a b) rfl rfl rfl]
  exact continueWith_withScroll i s (s.accept (planOf i s)) 0 (planOf i s).calls a b

/-- A step answers the same but for the two fields. -/
theorem step_withScroll {s t : State} (h : step s = .next t) (a : ScrollState) (b : Option ScrollCfg) :
    ∃ t', step (s.withScroll a b) = .next t' ∧ t'.withScroll t.scroll t.scrollCfg = t := by
  obtain ⟨hb, hp, rfl⟩ | ⟨hb, r, rest, i, hp, hd, hx⟩ | ⟨hb, hi, p, k, c, hr, -⟩ := step_next h
  · exact ⟨_, step_idle hb hp, rfl⟩
  · obtain ⟨t', hx', ht'⟩ := exec_withScroll hx a b
    exact ⟨t', (step_accept (s := s.withScroll a b) hb hp hd).trans hx', ht'⟩
  · have hr' : (s.withScroll a b).running = some (p, k, c) := by
      rw [State.running_congr (s := s) (u := s.withScroll a b) rfl rfl rfl rfl rfl, hr]
    refine ⟨_, step_engine (s := s.withScroll a b) hb hi hr', ?_⟩
    obtain ⟨i, -, rfl, -⟩ := State.running_some hr
    obtain rfl := Host.Outcome.next.inj ((step_engine hb hi hr).symm.trans h)
    rw [State.pollTransfer_withScroll]
    cases s.pollTransfer.1 with
    | false => rfl
    | true => exact continueWith_withScroll i s (s.pollTransfer.2.endCall c) (k + 1) _ a b

/-! ### Construction -/

/-- Construction with memories in canonical form meets the invariants (R32, R34, R35). -/
theorem State.construct_inv {cfg : Cfg} {l : Launch} (h : l.Ok cfg) : (State.construct cfg l).Inv where
  cfgOk := rfl
  mem := ⟨h.fbWf, h.fbWithin, h.bmpWf, h.bmpWithin⟩
  scroll := ⟨fun _ => rfl, fun _ => rfl⟩
  bus := ⟨fun _ => rfl, fun _ _ => rfl, fun _ => rfl, nofun, nofun, nofun⟩

theorem State.construct_traceInv (cfg : Cfg) (l : Launch) : (State.construct cfg l).TraceInv :=
  ⟨rfl, rfl, fun _ => rfl, nofun⟩

theorem Launch.standard_ok : Launch.standard.Ok Cfg.standard := ⟨rfl, rfl, rfl, rfl⟩

/-! ### The statements -/

/-- Settles O9: the gate of an operation is the one admission reads INIT_DONE for, and BEGIN's last act sets it. -/
theorem initDoneGatesEveryOperation : Obligations.InitDoneGatesEveryOperation := by
  refine ⟨fun _ _ => rfl, fun s ha he => ?_, fun i s hi hd => ?_, fun i s hi hb hc hd => ?_, fun s hd => ?_,
    fun s hb hc hd => ?_⟩
  · refine ⟨_, exec_next_iff.mpr ⟨admission_beforeBegin.mpr ha, rfl, rfl⟩, ?_⟩
    rw [perform_completes _ _ he]
    rfl
  · refine exec_refused_of_not_admitted fun ha => ?_
    obtain ⟨-, -, hdone⟩ := admission_afterBegin.mp (gateOf_of_ne hi ▸ ha)
    cases hd.symm.trans hdone
  · exact exec_refused (by simp [gateOf_of_ne hi, admission, hb, hc, hd])
  · refine exec_refused_of_not_admitted fun ha => ?_
    obtain ⟨-, -, hdone⟩ := admission_beforeBegin.mp ha
    cases hd.symm.trans hdone
  · exact exec_refused (by simp [gateOf, admission, hb, hc, hd])

/-- Settles O10: admission needs CFG_OK, and `step_keeps` keeps it. -/
theorem configOkGatesEveryOperation : Obligations.ConfigOkGatesEveryOperation := by
  have hrefused (i : Instr) (s : State) (hc : s.cfgOk = false) : ∃ r, exec i s = .refused r :=
    exec_refused_of_not_admitted fun ha => by simp [cfgOk_of_admitted ha] at hc
  refine ⟨fun _ _ => rfl, hrefused, fun i s hb hc => exec_refused (admission_of_not_cfgOk hb hc), fun s t h => ?_,
    fun s r rest hb hc hp => ?_⟩
  · obtain ⟨-, hok, -⟩ := step_keeps h
    exact hok
  · cases hd : decode r.word with
    | error e => exact ⟨_, step_unassigned hb hp hd⟩
    | ok i =>
      rw [step_accept hb hp hd]
      exact hrefused i (s.latch r rest) hc

/-- Settles O20. -/
theorem stepKeepsConfiguration : Obligations.StepKeepsConfiguration := by
  intro s t h
  obtain ⟨hcfg, -, hbmp, hrst⟩ := step_keeps h
  exact ⟨hcfg, by rw [hcfg, Cfg.fbSize], hbmp, hrst⟩

/-- Settles O21: what any step appends is in data-before-clock order, in either mode. -/
theorem tracesGrowDataBeforeClock : Obligations.TracesGrowDataBeforeClock := by
  intro s t h
  obtain ⟨-, htrace, evs, hevs, hd⟩ := step_extends h
  exact ⟨htrace, evs, hevs, fun _ => hd⟩

/-- Settles O25: every part of a step commutes with writing the two fields. -/
theorem scrollStateChangesNothingElse : Obligations.ScrollStateChangesNothingElse :=
  ⟨fun _ _ _ a b h => exec_withScroll h a b, fun _ _ a b h => step_withScroll h a b⟩

/-- Settles O6. -/
theorem stepRunsTheDecodedInstruction : Obligations.StepRunsTheDecodedInstruction :=
  ⟨fun _ _ _ _ hb hp hd => step_accept hb hp hd, fun _ hb hp => step_idle hb hp⟩

/-- Settles O8: admission names BUSY first, and so does a step met by a request that does not wait. -/
theorem requestWhileBusyIsRefused : Obligations.RequestWhileBusyIsRefused :=
  ⟨fun _ _ hb => exec_refused (admission_of_busy hb),
    fun _ _ _ hb hp hw => step_impatient hb (by simp [State.impatient, hp, hw])⟩

/-- Settles O16: each value is a field of `State.construct`. -/
theorem resetLeavesTheSpecValues : Obligations.ResetLeavesTheSpecValues :=
  fun _ _ => ⟨rfl, rfl, rfl, rfl, rfl, rfl, rfl, rfl, rfl, rfl, rfl, rfl, rfl, rfl, rfl⟩

/-- Settles O17. -/
theorem resetMeetsTheInvariants : Obligations.ResetMeetsTheInvariants :=
  ⟨fun cfg l h => ⟨State.construct_inv h, State.construct_traceInv cfg l⟩, State.construct_inv Launch.standard_ok,
    State.construct_traceInv _ _⟩

end Sys2Proof.Machine

/-! ## The framebuffer and its addresses: the proofs of the statements of spec 20_memory.md

The packer, the indexer and the source bits first; then what a draw is, and which steps can change FB. -/

namespace Sys2Proof.Machine

/-! ### The packer (R53) -/

/-- Writing back the nibble just read changes nothing. -/
theorem setnib_getnib (b : Byte) (x : Nat) : setnib b x (getnib b x) = b := by
  have hhalves : b.extractLsb' 4 4 ++ b.extractLsb' 0 4 = b :=
    (BitVec.extractLsb'_append_extractLsb'_eq_extractLsb' rfl).trans BitVec.extractLsb'_eq_self
  by_cases hx : x % 2 = 0 <;> simp only [setnib, getnib, hx, if_true, if_false, hhalves]

/-! ### The indexer (R51, R54) -/

/-- On an even width the framebuffer is `H` rows of whole bytes. -/
theorem Cfg.fbSize_of_even {cfg : Cfg} (hw : cfg.w % 2 = 0) : cfg.fbSize = cfg.h * (cfg.w / 2) := by
  rw [Cfg.fbSize, Nat.mul_comm, Nat.mul_div_assoc _ (Nat.dvd_of_mod_eq_zero hw)]

/-- The index of an in-bounds pixel is at most that of the last one. -/
theorem idx_le_idx_last {cfg : Cfg} {x y : Nat} (hx : x < cfg.w) (hy : y < cfg.h) :
    idx cfg x y ≤ idx cfg (cfg.w - 1) (cfg.h - 1) :=
  Nat.add_le_add (Nat.mul_le_mul_right _ (Nat.le_pred_of_lt hy)) (Nat.div_le_div_right (Nat.le_pred_of_lt hx))

/-- On an even width the last pixel lies in the last byte. -/
theorem idx_last {cfg : Cfg} (hw : cfg.w % 2 = 0) (hpos : 0 < cfg.w) (hh : 0 < cfg.h) :
    idx cfg (cfg.w - 1) (cfg.h - 1) = cfg.h * (cfg.w / 2) - 1 := by
  have hrow : (cfg.w - 1) / 2 = cfg.w / 2 - 1 := by omega
  have hstride : cfg.w / 2 ≤ cfg.h * (cfg.w / 2) := Nat.le_mul_of_pos_left _ hh
  rw [idx, hrow, Nat.sub_one_mul]
  omega

/-! ### The source bits of a bitmap (R55) -/

theorem srcBitIndex_mono (mode : RowMode) (w : Nat) {i i' j j' : Nat} (hi : i ≤ i') (hj : j ≤ j') :
    srcBitIndex mode w i j ≤ srcBitIndex mode w i' j' :=
  Nat.add_le_add (Nat.mul_le_mul_right _ hj) hi

/-- A bitmap leaves BMP exactly when one of its bits does: if any, then the last one. -/
theorem sourceBeyond_iff {cfg : Cfg} {src : Nat} {w h : Int} :
    sourceBeyond cfg src w h = true ↔ ∃ i j : Nat, (i : Int) < w ∧ (j : Int) < h ∧
      cfg.bmpSize.val ≤ src + srcBitIndex cfg.bmpRowMode w.toNat i j / 8 := by
  simp only [sourceBeyond, Bool.and_eq_true, decide_eq_true_eq, and_assoc]
  constructor
  · rintro ⟨hw, hh, hlast⟩
    exact ⟨w.toNat - 1, h.toNat - 1, by omega, by omega, hlast⟩
  · rintro ⟨i, j, hi, hj, hbit⟩
    have hmono := srcBitIndex_mono cfg.bmpRowMode w.toNat (i := i) (i' := w.toNat - 1) (j := j) (j' := h.toNat - 1)
      (by omega) (by omega)
    exact ⟨by omega, by omega, hbit.trans (Nat.add_le_add_left (Nat.div_le_div_right hmono) src)⟩

/-- An admitted BITMAP on an even width is refused exactly when its source leaves BMP. -/
theorem exec_bitmap_refused_iff {s : State} {x y : Int} {src : Arg} {w h : Int} {color : Color} (ha : s.Ready)
    (hw : s.cfg.w % 2 = 0) : exec (.bitmap x y src w h color) s = .refused .bitmapBeyondSource ↔
      sourceBeyond s.cfg src.toNat w h = true := by
  have hadm := admission_afterBegin.mpr ha
  cases hs : sourceBeyond s.cfg src.toNat w h <;> simp [exec, execBitmap, runPixelOp, hadm, hs, hw]

/-! ### Drawing (R189) -/

/-- An operation that only changes FB leaves all else as it was. -/
theorem perform_drawPlan_fbOnly (f : Mem → Mem) (s : State) : s.FbOnly (perform (drawPlan f) s) := by
  rw [State.FbOnly, perform_drawPlan]

/-! ### Which steps can change FB (R65, R66) -/

/-- The last act of an operation that does not draw leaves FB. -/
theorem planOf_finish_fb {i : Instr} (hi : writesFb i = false) (s u : State) : ((planOf i s).finish u).fb = u.fb := by
  cases i
  case setpixel | vline | hline | bitmap | fill | clear => cases hi
  case display flag =>
    cases flag with
    | false => rfl
    | true => cases hi
  all_goals rfl

/-- The rest of an operation that does not draw leaves FB, whether it completes or waits. -/
theorem continueWith_fb {i : Instr} (hi : writesFb i = false) (s v : State) (k : Nat) (cs : List Call) :
    (continueWith (planOf i s) k cs v).fb = v.fb := by
  obtain ⟨u, hu, he⟩ | ⟨-, j, c, u, e, -, hu, he⟩ := continueWith_cases (planOf i s) k cs v
  · rw [he, State.complete, planOf_finish_fb hi]
    exact hu.fb
  · rw [he]
    exact hu.fb

/-- A step of an idle block works on the request it accepts. -/
theorem State.operation_of_port {s : State} {r : HostReq} {rest : List HostReq} {i : Instr} (hb : s.busy = false)
    (hp : s.port = r :: rest) (hd : decode r.word = .ok i) : s.operation = some i := by
  simp [State.operation, hb, hp, hd, Except.toOption]

/-- A step of a BUSY block works on the operation latched in REQ. -/
theorem State.operation_of_req {s : State} {i : Instr} (hb : s.busy = true) (hd : decode s.req = .ok i) :
    s.operation = some i := by
  simp [State.operation, hb, hd, Except.toOption]

/-- No step changes FB but one that works on an operation that draws. -/
theorem step_fb {s t : State} (h : step s = .next t) (hop : ∀ i, s.operation = some i → writesFb i = false) :
    t.fb = s.fb := by
  obtain ⟨-, -, rfl⟩ | ⟨hb, r, rest, i, hp, hd, -, rfl⟩ | ⟨hb, i, k, c, e, hd, -, rfl | rfl⟩ := step_cases h
  · rfl
  · exact continueWith_fb (hop i (State.operation_of_port hb hp hd)) s _ _ _
  · rfl
  · exact continueWith_fb (hop i (State.operation_of_req hb hd)) s _ _ _

/-! ### The statements -/

/-- Settles O24: neither a transport call nor the last act of an operation that does not draw writes FB. -/
theorem onlyDrawingChangesTheFramebuffer : Obligations.OnlyDrawingChangesTheFramebuffer := by
  refine ⟨fun i s t h hi => ?_, fun s t h hop => step_fb h hop⟩
  obtain ⟨-, rfl⟩ := exec_next h
  exact continueWith_fb hi s _ _ _

/-- Settles O39: the index grows with the pixel, and the last pixel has the last byte. -/
theorem indexStaysInTheFramebuffer : Obligations.IndexStaysInTheFramebuffer := by
  intro cfg x y hw hx hy
  exact ⟨rfl, idx_le_idx_last hx hy, idx_last hw (Nat.zero_lt_of_lt hx) (Nat.zero_lt_of_lt hy),
    by rw [Cfg.fbSize_of_even hw], idx_lt_fbSize hw hx hy⟩

/-- Settles O40: one byte means one row and one column pair (`idx_inj`), and the parity tells the columns of a pair apart. -/
theorem pixelsHaveTheirOwnNibble : Obligations.PixelsHaveTheirOwnNibble := by
  intro cfg x y x' y' hw hx hx' hidx hparity
  obtain ⟨hy, hpair⟩ := idx_inj hw hx hx' hidx
  exact ⟨by omega, hy⟩

/-- Settles O47: some bit lies beyond BMP exactly when the last one does, which is what BITMAP tests. -/
theorem bitmapBeyondSourceIsRefused : Obligations.BitmapBeyondSourceIsRefused :=
  fun _ _ _ _ _ _ _ ha hw => (exec_bitmap_refused_iff ha hw).trans sourceBeyond_iff

/-- Settles O50: the plan of each of the six is a `drawPlan`. -/
theorem primitivesTransmitNothing : Obligations.PrimitivesTransmitNothing := by
  intro i s t hi h
  obtain ⟨-, rfl⟩ := exec_next h
  obtain ⟨_, _, _, rfl⟩ | ⟨_, _, _, _, rfl⟩ | ⟨_, _, _, _, rfl⟩ | ⟨_, _, _, _, _, _, rfl⟩ | ⟨_, rfl⟩ | rfl := hi <;>
    exact perform_drawPlan_fbOnly _ s

/-- Settles O38. -/
theorem packerLaws : Obligations.PackerLaws :=
  ⟨fun _ _ => rfl, fun _ _ _ => rfl, fun _ _ _ _ => rfl, fun b x v =>
    ⟨getnib_setnib_same b x v, fun z hz => getnib_setnib_other b x z v hz, setnib_getnib b x⟩⟩

end Sys2Proof.Machine

/-! ## Requests and instructions: the proofs of the statements of spec 30_encoding.md

First the row of an operation code, and reading back; then words under the mask of their operation, which is all the decoder
reads and all a canonical word has; then the operands as bits of the whole word, and the count of the codes. -/

namespace Sys2Proof.Machine

/-! ### The row of an operation code (R84, R93) -/

/-- A word is decoded by the row its code looks up. -/
theorem decode_of_find {w : Request} {op : Byte} {r : OpRow} (hr : opRows.find? (fun r => r.1 == op) = some r)
    (hop : opField w = op) : decode w = .ok (r.2 w) := by
  simp only [decode, hop, hr]

/-- Each row reads well-formed instructions, and of its own code (R82, R84). -/
theorem opRows_read_wf : ∀ r ∈ opRows, ∀ w, (r.2 w).opcode = r.1 ∧ (r.2 w).wf = true := by
  simp [opRows, encoderRows, drawingRows, scrollRows, Instr.opcode, Instr.wf, fits_signedOf]

/-! ### Reading back (R80 to R85) -/

/-- A word put together with the code of a row is decoded by that row. -/
theorem decode_requestOf {op : Byte} {r : OpRow} (hr : opRows.find? (fun r => r.1 == op) = some r)
    (a0 a1 a2 a3 a4 a5 : Arg) :
    decode (requestOf op a0 a1 a2 a3 a4 a5) = .ok (r.2 (requestOf op a0 a1 a2 a3 a4 a5)) :=
  decode_of_find hr (opField_requestOf ..)

/-- The code of a canonical word finds the instruction's row, and each field of the row the operand put there. -/
theorem decode_encode {i : Instr} (h : i.wf = true) : decode (encode i) = .ok i := by
  cases i
  case setpixel x y color =>
    simp only [Instr.wf, Bool.and_eq_true] at h
    obtain ⟨hx, hy⟩ := h
    exact (decode_requestOf rfl ..).trans (by simp [signedOf_ofSigned, hx, hy])
  case vline x y len color | hline x y len color =>
    simp only [Instr.wf, Bool.and_eq_true] at h
    obtain ⟨⟨hx, hy⟩, hlen⟩ := h
    exact (decode_requestOf rfl ..).trans (by simp [signedOf_ofSigned, hx, hy, hlen])
  case bitmap x y src width height color =>
    simp only [Instr.wf, Bool.and_eq_true] at h
    obtain ⟨⟨⟨hx, hy⟩, hw⟩, hh⟩ := h
    exact (decode_requestOf rfl ..).trans (by simp [signedOf_ofSigned, hx, hy, hw, hh])
  all_goals exact (decode_requestOf rfl ..).trans (by simp)

/-! ### The fields of a masked word -/

section Fields
variable (w m : Request)

@[simp] theorem opField_and : opField (w &&& m) = opField w &&& opField m := BitVec.extractLsb'_and

@[simp] theorem arg0_and : arg0 (w &&& m) = arg0 w &&& arg0 m := BitVec.extractLsb'_and

@[simp] theorem arg1_and : arg1 (w &&& m) = arg1 w &&& arg1 m := BitVec.extractLsb'_and

@[simp] theorem arg2_and : arg2 (w &&& m) = arg2 w &&& arg2 m := BitVec.extractLsb'_and

@[simp] theorem arg3_and : arg3 (w &&& m) = arg3 w &&& arg3 m := BitVec.extractLsb'_and

@[simp] theorem arg4_and : arg4 (w &&& m) = arg4 w &&& arg4 m := BitVec.extractLsb'_and

@[simp] theorem arg5_and : arg5 (w &&& m) = arg5 w &&& arg5 m := BitVec.extractLsb'_and

end Fields

/-- Two words put together are masked field by field. -/
theorem requestOf_and (op op' : Byte) (a0 a1 a2 a3 a4 a5 b0 b1 b2 b3 b4 b5 : Arg) :
    requestOf op a0 a1 a2 a3 a4 a5 &&& requestOf op' b0 b1 b2 b3 b4 b5
      = requestOf (op &&& op') (a0 &&& b0) (a1 &&& b1) (a2 &&& b2) (a3 &&& b3) (a4 &&& b4) (a5 &&& b5) := by
  show (op ++ a0 ++ a1 ++ a2 ++ a3 ++ a4 ++ a5 : BitVec (8 + 16 + 16 + 16 + 16 + 16 + 16)) &&&
    (op' ++ b0 ++ b1 ++ b2 ++ b3 ++ b4 ++ b5) = _
  simp only [BitVec.and_append, requestOf]

/-! ### An operand under the mask of its format (R81, R83) -/

section Masks
variable (a : Arg)

@[simp] theorem and_signedMask : a &&& 0xFFFF#16 = a := BitVec.and_allOnes

@[simp] theorem byteOf_and : byteOf (a &&& 0xFF#16) = byteOf a := BitVec.extractLsb'_and.trans BitVec.and_allOnes

@[simp] theorem nibbleOf_and : nibbleOf (a &&& 0xF#16) = nibbleOf a := BitVec.extractLsb'_and.trans BitVec.and_allOnes

@[simp] theorem flagOf_and_one : flagOf (a &&& 0x1#16) = flagOf a := by simp [flagOf]

@[simp] theorem flagOf_and_three : flagOf (a &&& 0x3#16) = flagOf a := by simp [flagOf]

@[simp] theorem flag1Of_and_three : flag1Of (a &&& 0x3#16) = flag1Of a := by simp [flag1Of]

/-- The kind of a colour (R83) has four values. -/
theorem kind_cases (k : BitVec 2) : k = 0#2 ∨ k = 1#2 ∨ k = 2#2 ∨ k = 3#2 := by
  revert k
  decide

/-- Either mask of a colour keeps the kind, and that of the kind RAW the level. -/
@[simp] theorem colorOf_and : colorOf (a &&& colorMask a) = colorOf a := by
  have hkind : (a &&& 0x30#16).extractLsb' 4 2 = a.extractLsb' 4 2 := BitVec.extractLsb'_and.trans BitVec.and_allOnes
  have hraw : (a &&& 0x3F#16).extractLsb' 4 2 = a.extractLsb' 4 2 := BitVec.extractLsb'_and.trans BitVec.and_allOnes
  have hlevel : nibbleOf (a &&& 0x3F#16) = nibbleOf a := BitVec.extractLsb'_and.trans BitVec.and_allOnes
  obtain h | h | h | h := kind_cases (a.extractLsb' 4 2) <;> simp [colorOf, colorMask, h, hkind, hraw, hlevel]

@[simp] theorem ofByte_and (b : Byte) : ofByte b &&& 0xFF#16 = ofByte b :=
  (BitVec.and_append (x₂ := 0#8) (y₂ := 0xFF#8)).trans (congrArg (0#8 ++ ·) BitVec.and_allOnes)

@[simp] theorem ofNibble_and (n : Nibble) : ofNibble n &&& 0xF#16 = ofNibble n :=
  (BitVec.and_append (x₂ := 0#12) (y₂ := 0xF#4)).trans (congrArg (0#12 ++ ·) BitVec.and_allOnes)

@[simp] theorem ofFlag_and (f : Bool) : ofFlag f &&& 0x1#16 = ofFlag f := by cases f <;> rfl

@[simp] theorem ofFlags_and (lo hi : Bool) : ofFlags lo hi &&& 0x3#16 = ofFlags lo hi := by
  cases lo <;> cases hi <;> rfl

@[simp] theorem ofColor_and (c : Color) : ofColor c &&& colorMask (ofColor c) = ofColor c := by
  cases c with
  | off | on | inv => rfl
  | raw n =>
    have hkind : (ofColor (.raw n)).extractLsb' 4 2 = 3#2 := extract_append_left 0x003#12 n 0 2
    rw [colorMask, if_pos hkind]
    exact (BitVec.and_append (x₂ := 0x003#12) (y₂ := 0xF#4)).trans (congrArg (0x003#12 ++ ·) BitVec.and_allOnes)

end Masks

/-! ### Words under the mask of their operation (R85) -/

theorem opField_usedMask (w : Request) : opField (usedMask w) = BitVec.allOnes 8 := by
  unfold usedMask
  split <;> exact opField_requestOf ..

theorem opField_and_usedMask (w : Request) : opField (w &&& usedMask w) = opField w := by
  rw [opField_and, opField_usedMask, BitVec.and_allOnes]

/-- Each row reads operand bits only. -/
theorem opRows_read_usedMask : ∀ r ∈ opRows, ∀ w, opField w = r.1 → r.2 (w &&& usedMask w) = r.2 w := by
  simp +contextual [opRows, encoderRows, drawingRows, scrollRows, usedMask]

/-- The decoder reads the operation code and operand bits only. -/
theorem decode_and_usedMask (w : Request) : decode (w &&& usedMask w) = decode w := by
  have hop := opField_and_usedMask w
  by_cases h : opField w ∈ opRows.map Prod.fst
  · obtain ⟨r, hr, hc⟩ := List.mem_map.mp h
    rw [decode_of_mem hr (hop.trans hc.symm), decode_of_mem hr hc.symm, opRows_read_usedMask r hr w hc.symm]
  · rw [decode_of_not_mem (by rwa [hop]), decode_of_not_mem h, hop]

/-- A canonical word has operand bits only. -/
theorem encode_and_usedMask (i : Instr) : encode i &&& usedMask (encode i) = encode i := by
  cases i <;> simp [encode, Instr.opcode, usedMask, requestOf_and]

/-! ### Operands as bits of the whole word (R81 to R83) -/

theorem flagOf_extract (w : Request) (lo : Nat) : flagOf (w.extractLsb' lo 16) = w.getLsbD lo := by
  simp [flagOf]

theorem flag1Of_extract (w : Request) (lo : Nat) : flag1Of (w.extractLsb' lo 16) = w.getLsbD (lo + 1) := by
  simp [flag1Of]

theorem colorOf_extract (w : Request) (lo : Nat) : colorOf (w.extractLsb' lo 16) =
    match w.getLsbD (lo + 5), w.getLsbD (lo + 4) with
    | false, false => .off
    | false, true => .on
    | true, false => .inv
    | true, true => .raw (w.extractLsb' lo 4) := by
  have hbit (i : Nat) (hi : i < 2) :
      w.getLsbD (lo + (4 + i)) = ((w.extractLsb' lo 16).extractLsb' 4 2).getLsbD i := by
    simp [hi, show 4 + i < 16 by omega]
  rw [colorOf, nibbleOf_extract, hbit 1 (by decide), hbit 0 (by decide)]
  obtain h | h | h | h := kind_cases ((w.extractLsb' lo 16).extractLsb' 4 2) <;> rw [h] <;> rfl

/-- `decode_of_find` for a code given as a number. -/
theorem decode_of_toNat {w : Request} {n : Nat} {r : OpRow}
    (hr : opRows.find? (fun r => r.1 == BitVec.ofNat 8 n) = some r) (hn : (opField w).toNat = n) :
    decode w = .ok (r.2 w) :=
  decode_of_find hr (by rw [← hn, BitVec.ofNat_toNat, BitVec.setWidth_eq])

/-! ### The unassigned codes (R86) -/

/-- Of the `2 ^ w` values of width `w`, those not in a list of distinct ones. -/
theorem length_filter_not_mem {w : Nat} {l : List (BitVec w)} (h : l.Nodup) :
    ((List.range (2 ^ w)).filter (fun n => decide (BitVec.ofNat w n ∉ l))).length = 2 ^ w - l.length := by
  have hset : (Finset.range (2 ^ w)).filter (fun n => BitVec.ofNat w n ∉ l)
      = Finset.range (2 ^ w) \ (l.map BitVec.toNat).toFinset := by
    ext n
    simp only [Finset.mem_filter, Finset.mem_range, Finset.mem_sdiff, List.mem_toFinset, List.mem_map]
    refine and_congr_right fun hn => not_congr ⟨fun hm => ⟨_, hm, Nat.mod_eq_of_lt hn⟩, ?_⟩
    rintro ⟨x, hx, rfl⟩
    simpa using hx
  have hsub : (l.map BitVec.toNat).toFinset ⊆ Finset.range (2 ^ w) := by
    intro n hn
    obtain ⟨x, -, rfl⟩ := List.mem_map.mp (List.mem_toFinset.mp hn)
    exact Finset.mem_range.mpr x.isLt
  calc
    _ = ((Finset.range (2 ^ w)).filter (fun n => BitVec.ofNat w n ∉ l)).card := rfl
    _ = (Finset.range (2 ^ w)).card - (l.map BitVec.toNat).toFinset.card := by
      rw [hset, Finset.card_sdiff_of_subset hsub]
    _ = 2 ^ w - l.length := by
      rw [Finset.card_range, List.toFinset_card_of_nodup (h.map BitVec.toNat_injective), List.length_map]

/-! ### The statements -/

/-- Settles O1: the canonical word of an instruction finds its row, which reads each operand back. -/
theorem decodeOfEncodeIsTheInstruction : Obligations.DecodeOfEncodeIsTheInstruction :=
  fun _ h => decode_encode h

/-- Settles O2: a code in the map has one row, which reads a well-formed instruction of that code. -/
theorem everyWordHasOneRowOrIsUnassigned : Obligations.EveryWordHasOneRowOrIsUnassigned := by
  refine ⟨opRows_codes_nodup, opRows_length, fun w => ?_⟩
  by_cases h : opField w ∈ opRows.map Prod.fst
  · obtain ⟨r, hr, hc⟩ := List.mem_map.mp h
    obtain ⟨hop, hwf⟩ := opRows_read_wf r hr w
    exact .inl ⟨r.2 w, decode_of_mem hr hc.symm, hop.trans hc, hwf, h⟩
  · exact .inr ⟨decode_of_not_mem h, h⟩

/-- Settles O3: either word decodes as their common masked word does. -/
theorem unusedRequestBitsAreIgnored : Obligations.UnusedRequestBitsAreIgnored :=
  ⟨fun w w' h => by rw [← decode_and_usedMask w, h, decode_and_usedMask w'], encode_and_usedMask⟩

/-- Settles O4: a code of the map looks up its row, whose fields are bits of the whole word; no other code is in the map. -/
theorem decodingReadsTheFormats : Obligations.DecodingReadsTheFormats := by
  intro w byte signed color
  have hbyte (lo : Nat) : byteOf (w.extractLsb' lo 16) = byte lo := byteOf_extract w lo
  have hsigned (lo : Nat) : signedOf (w.extractLsb' lo 16) = signed lo := rfl
  have hcolor (lo : Nat) : colorOf (w.extractLsb' lo 16) = color lo := colorOf_extract w lo
  clear_value byte signed color
  split
  case h_28 =>
    refine decode_of_not_mem ?_
    simp_all [opRows, encoderRows, drawingRows, scrollRows, opField, ← BitVec.toNat_inj, -BitVec.extractLsb'_toNat]
  all_goals
    next hop =>
      exact (decode_of_toNat rfl hop).trans (by
        simp only [arg0, arg1, arg2, arg3, arg4, arg5, hbyte, hsigned, hcolor, nibbleOf_extract, flagOf_extract,
          flag1Of_extract])

/-- Settles O5: eleven fixed words. -/
theorem specWordsDecode : Obligations.SpecWordsDecode := by
  unfold Obligations.SpecWordsDecode
  decide

/-- Settles O7: the 27 codes are distinct, so that 256 - 27 are unassigned. -/
theorem unassignedCodeIsRefused : Obligations.UnassignedCodeIsRefused :=
  ⟨length_filter_not_mem opRows_codes_nodup, by decide,
    fun _ _ _ hb hp h => step_unassigned hb hp (decode_of_not_mem h)⟩

end Sys2Proof.Machine

/-! ## Bus transport: the proofs of the statements of spec 40_transport.md

First what a receiver reads of whole calls, and the traces through a step; then the levels and the pin writes of one call;
then an engine that answers late, through one call after another. -/

namespace Sys2Proof.Machine

/-! ### What a receiver has read between two calls (R119) -/

/-- The receiver has read the frames `fs` and nothing of a next one. -/
structure Receiver.HasRead (r : Receiver) (fs : List Event) : Prop where
  frames : r.frames = fs
  noPartial : r.bits = []
  closed : r.selected = false

/-- The end of a call completes what its opening delivered: the frame of the call. -/
theorem Receiver.HasRead.closing {cfg : Cfg} {r : Receiver} {c : Call} (hs : r.selected = true) (hd : r.dc = c.dc)
    (hb : r.bytes = c.bytes) : ((closing cfg).foldl (Receiver.receive cfg) r).HasRead (r.frames ++ [c.frame]) := by
  rw [receive_closing cfg r hs, hd, hb]
  exact ⟨rfl, rfl, rfl⟩

/-- Whole calls are read as their frames, in either mode. -/
theorem Receiver.HasRead.calls (cfg : Cfg) : ∀ (cs : List Call) {r : Receiver} {fs : List Event}, r.HasRead fs →
    ((cs.flatMap (Call.events cfg)).foldl (Receiver.receive cfg) r).HasRead (fs ++ cs.map Call.frame)
  | [], _, _, h => by simpa using h
  | c :: rest, r, fs, h => by
    obtain ⟨d, hd⟩ := receive_opening cfg c r
    have hcall : ((c.events cfg).foldl (Receiver.receive cfg) r).HasRead (fs ++ [c.frame]) := by
      rw [Call.events, List.foldl_append, hd, ← h.frames]
      exact .closing rfl rfl rfl
    rw [List.flatMap_cons, List.foldl_append, List.map_cons, List.append_cons]
    exact Receiver.HasRead.calls cfg rest hcall

@[simp] theorem filter_isFrame_calls (cs : List Call) : (cs.map Call.frame).filter Event.isFrame = cs.map Call.frame :=
  List.filter_eq_self.mpr (by simp [Call.frame, Event.isFrame])

/-! ### The traces through a step (R119) -/

/-- The traces between two calls: a receiver of the pins has read the frames of the byte-level trace, and no more. -/
abbrev State.TracesAgree (s : State) : Prop :=
  (received s.cfg s.pinTrace).HasRead (s.trace.filter Event.isFrame)

theorem State.TracesAgree.sent {s u : State} {cs : List Call} (h : s.TracesAgree) (hu : s.SentCalls u cs) :
    u.TracesAgree := by
  simp only [State.TracesAgree, hu.cfg, hu.pinTrace, hu.trace, received_append, List.filter_append, filter_isFrame_calls]
  exact h.calls s.cfg cs

/-- Traces that agree are those of an idle block. -/
theorem State.TracesAgree.traceInv {s : State} (h : s.TracesAgree) (hb : s.busy = false) : s.TraceInv :=
  ⟨h.frames, h.noPartial, fun _ => h.closed, fun hb' => by cases hb.symm.trans hb'⟩

/-- Completion touches no trace. -/
theorem State.TracesAgree.complete {u : State} (h : u.TracesAgree) (i : Instr) (s : State) :
    (u.complete (planOf i s)).TraceInv := by
  have hf := planOf_finish i s { u with busy := false, seq := none }
  refine State.TracesAgree.traceInv ?_ hf.busy
  simpa only [State.TracesAgree, State.complete, hf.cfg, hf.pinTrace, hf.trace] using h

/-- An answer "not yet" touches no trace. -/
theorem State.TraceInv.polled {s : State} (h : s.TraceInv) (e : Engine) : State.TraceInv { s with engine := e } := by
  obtain ⟨hf, hn, hi, hw⟩ := h
  refine ⟨hf, hn, hi, fun hb p k c hr => hw hb p k c ?_⟩
  rwa [State.running_congr (s := s) (u := { s with engine := e }) rfl rfl rfl rfl rfl] at hr

/-- From the start of a call on, the operation under way is in that call. -/
theorem State.running_startCall {u : State} {i : Instr} {k : Nat} {c : Call} (hd : decode u.req = .ok i)
    (hc : (planOf i u).calls[k]? = some c) : (u.startCall k c).running = some (planOf i u, k, c) := by
  simp [State.running, hd, planOf_congr i (s := u) (u := u.startCall k c) rfl rfl rfl, hc]

/-- Inside a call the receiver has read its opening: DC and the bytes of the call that REQ and SEQ name. -/
theorem State.TracesAgree.startCall {i : Instr} {u : State} {k : Nat} {c : Call} (h : u.TracesAgree)
    (hb : u.BetweenCalls i) (hc : (planOf i u).calls[k]? = some c) : (u.startCall k c).TraceInv := by
  obtain ⟨d, hd⟩ := receive_opening u.cfg c (received u.cfg u.pinTrace)
  have hread : received (u.startCall k c).cfg (u.startCall k c).pinTrace
      = ⟨true, c.dc, d, [], c.bytes, (received u.cfg u.pinTrace).frames⟩ := by
    rw [State.startCall_cfg, State.startCall_pinTrace, received_append, hd]
  refine ⟨by rw [hread]; exact h.frames, by rw [hread], fun hidle => ?_, fun _ p k' c' hr => ?_⟩
  · cases hb.busy.symm.trans hidle
  · cases (State.running_startCall hb.req hc).symm.trans hr
    rw [hread]
    exact ⟨rfl, rfl, rfl⟩

/-- The rest of an operation, from between two of its calls, leaves traces that agree. -/
theorem State.TracesAgree.continueWith {i : Instr} {s v : State} {k : Nat} (h : v.TracesAgree) (hb : v.BetweenCalls i)
    (hp : planOf i v = planOf i s) : (continueWith (planOf i s) k ((planOf i s).calls.drop k) v).TraceInv := by
  obtain ⟨u, hu, he⟩ | ⟨-, j, c, u, e, hj, hu, he⟩ :=
    continueWith_cases (planOf i s) k ((planOf i s).calls.drop k) v
  · rw [he]
    exact (h.sent hu).complete i s
  · rw [he]
    have hpu : planOf i u = planOf i s := (planOf_congr i hu.cfg hu.fb hu.bmp).trans hp
    exact ((h.sent hu).startCall (hb.sent hu) (by rw [hpu, ← hj, List.getElem?_drop])).polled e

/-- Acceptance adds the reset pulse at most, which is no frame. -/
theorem State.TraceInv.accepted {s : State} (h : s.TraceInv) (hb : s.busy = false) (r : HostReq) (rest : List HostReq)
    (p : Plan) : ((s.latch r rest).accept p).TracesAgree := by
  refine ⟨?_, h.noPartial, h.idle hb⟩
  cases hr : p.rst <;> simp [hr, h.frames, Event.isFrame]

/-- The engine's return ends the call under way, which the receiver then has read. -/
theorem State.TraceInv.returned {s : State} (h : s.TraceInv) (hb : s.busy = true) {p : Plan} {k : Nat} {c : Call}
    (hr : s.running = some (p, k, c)) (e : Engine) : (State.endCall { s with engine := e } c).TracesAgree := by
  obtain ⟨hs, hd, hbytes⟩ := h.waiting hb p k c hr
  have hread := Receiver.HasRead.closing (cfg := s.cfg) hs hd hbytes
  rw [h.frames] at hread
  simp only [State.TracesAgree, State.endCall_cfg, State.endCall_pinTrace, State.endCall_trace, received_append,
    List.filter_append]
  exact hread

/-! ### One call on the pins (R111 to R115, R121, R122) -/

theorem shiftBitbang_cons (cfg : Cfg) (b : Byte) (bs : List Byte) :
    shiftBitbang cfg (b :: bs) = (wireBits b).flatMap (bitEvents cfg) ++ shiftBitbang cfg bs := rfl

/-- The pin writes of a byte end with its bit 0 on DATA and the clock de-asserted. -/
theorem Pins.apply_byte (cfg : Cfg) (b : Byte) (p : Pins) :
    ((wireBits b).flatMap (bitEvents cfg)).foldl Pins.apply p = { p with data := b.getLsbD 0, clk := !cfg.clkActive } :=
  rfl

/-- So do those of a byte after others, whose levels it overwrites. -/
theorem Pins.apply_shiftBitbang (cfg : Cfg) (b : Byte) : ∀ (bs : List Byte) (p : Pins),
    (shiftBitbang cfg (bs ++ [b])).foldl Pins.apply p = { p with data := b.getLsbD 0, clk := !cfg.clkActive }
  | [], p => by simp [shiftBitbang, Pins.apply_byte]
  | a :: rest, p => by
    rw [List.cons_append, shiftBitbang_cons, List.foldl_append, Pins.apply_byte, Pins.apply_shiftBitbang cfg b rest]

/-- The levels after a bit-banged call of bytes ending in `b`. -/
theorem Pins.apply_call_bitbang {cfg : Cfg} (h : cfg.busMode = .bitbang) (dc : Level) (bs : List Byte) (b : Byte) (p : Pins) :
    (Call.events cfg { dc := dc, bytes := bs ++ [b] }).foldl Pins.apply p
      = { p with data := b.getLsbD 0, clk := !cfg.clkActive, cs := !cfg.csActive, dc := dc } := by
  simp [Call.events, Call.opening, closing, shift, h, Pins.apply_shiftBitbang, Pins.apply]

/-- The levels after a call in mode HW, where DATA and CLK are the engine's. -/
theorem Pins.apply_call_hw {cfg : Cfg} (h : cfg.busMode = .hw) (c : Call) (p : Pins) :
    (c.events cfg).foldl Pins.apply p = { p with cs := !cfg.csActive, dc := c.dc } := by
  simp [Call.events, Call.opening, closing, shift, h, Pins.apply]

/-- After a call, in either mode, CS is inactive and DC at the level of the call. -/
theorem Pins.apply_call_cs_dc (cfg : Cfg) (dc : Level) (bs : List Byte) (b : Byte) (p : Pins) :
    ((Call.events cfg { dc := dc, bytes := bs ++ [b] }).foldl Pins.apply p).cs = (!cfg.csActive) ∧
      ((Call.events cfg { dc := dc, bytes := bs ++ [b] }).foldl Pins.apply p).dc = dc := by
  cases h : cfg.busMode with
  | bitbang => rw [Pins.apply_call_bitbang h]; exact ⟨rfl, rfl⟩
  | hw => rw [Pins.apply_call_hw h]; exact ⟨rfl, rfl⟩

theorem shiftBitbang_length (cfg : Cfg) : ∀ bs : List Byte, (shiftBitbang cfg bs).length = 24 * bs.length
  | [] => rfl
  | b :: rest => by
    have hbyte : ((wireBits b).flatMap (bitEvents cfg)).length = 24 := rfl
    rw [shiftBitbang_cons, List.length_append, shiftBitbang_length cfg rest, hbyte, List.length_cons]
    omega

theorem exists_pin_of_mem_shiftBitbang {cfg : Cfg} {bs : List Byte} {e : PinEvent} (he : e ∈ shiftBitbang cfg bs) :
    ∃ sig l, e = .pin sig l := by
  simp only [shiftBitbang, List.mem_flatMap, bitEvents, List.mem_cons, List.not_mem_nil, or_false] at he
  obtain ⟨b, -, l, -, rfl | rfl | rfl⟩ := he <;> exact ⟨_, _, rfl⟩

/-- An admitted operation whose plan is one call of one byte: its frame and pin writes, and nothing else. -/
theorem exec_sends_byte {i : Instr} {s : State} {dc : Level} {b : Byte} (ha : s.Ready) (he : s.EngineReturns)
    (hi : exec i s = runOp .afterBegin (sendPlan [{ dc := dc, bytes := [b] }]) s) :
    ∃ t, exec i s = .next t ∧ s.SentOnly t [.frame dc [b]] ∧
      t.pinTrace = s.pinTrace ++ [.pin .dc dc, .pin .cs s.cfg.csActive] ++ shift s.cfg [b] ++ [.pin .cs (!s.cfg.csActive)] ∧
      t.pins.dc = dc ∧ t.pins.cs = (!s.cfg.csActive) := by
  obtain ⟨hcs, hdc⟩ := Pins.apply_call_cs_dc s.cfg dc [] b s.pins
  refine ⟨_, hi.trans (runOp_sendPlan (admission_afterBegin.mpr ha) he), s.afterCalls_sentOnly _, ?_, ?_, ?_⟩
  · simp [Call.events, Call.opening, closing]
  · simpa using hdc
  · simpa using hcs

/-! ### Steps in a row -/

theorem run_of_next {s t : State} (h : step s = .next t) (n : Nat) : core.run (n + 1) s = core.run n t := by
  have h' : core.step s = .next t := h
  simp only [Host.Core.run, h']

/-- A refusal or a fault ends the run. -/
theorem run_of_not_next {s : State} (h : ∀ t, step s ≠ .next t) (n : Nat) : core.run (n + 1) s = step s := by
  have hcore : core.step s = step s := rfl
  cases hs : step s with
  | next t => exact absurd hs (h t)
  | fault x | refused x =>
    simp only [Host.Core.run, hcore, hs]
    rfl

/-- With no request the idle block waits, for any number of steps (R271). -/
theorem run_idle {s : State} (hb : s.busy = false) (hp : s.port = []) : ∀ n, core.run n s = .next s
  | 0 => rfl
  | n + 1 => (run_of_next (step_idle hb hp) n).trans (run_idle hb hp n)

/-! ### Other answers of the engine (R121, R255) -/

/-- `s` with other answers of the engine to come. -/
def State.withEngine (s : State) (e : Engine) : State := { s with engine := e }

@[simp] theorem State.withEngine_cfg (s : State) (e : Engine) : (s.withEngine e).cfg = s.cfg := rfl

@[simp] theorem admission_withEngine (g : Gate) (s : State) (e : Engine) : admission g (s.withEngine e) = admission g s := rfl

@[simp] theorem planOf_withEngine (i : Instr) (s : State) (e : Engine) : planOf i (s.withEngine e) = planOf i s :=
  planOf_congr i rfl rfl rfl

/-- The last act of an operation neither reads nor writes the engine's answers. -/
theorem planOf_finish_withEngine (i : Instr) (s u : State) (e : Engine) :
    (planOf i s).finish (u.withEngine e) = ((planOf i s).finish u).withEngine e := by
  cases i
  case display flag => cases flag <;> rfl
  all_goals rfl

/-- Where an operation answers no next state, it stops before the engine is polled. -/
theorem exec_withEngine_of_not_next {i : Instr} {s : State} (h : ∀ t, exec i s ≠ .next t) (e : Engine) :
    exec i (s.withEngine e) = exec i s := by
  cases ha : admission (gateOf i) s with
  | some r => rw [exec_refused ha, exec_refused (s := s.withEngine e) ha]
  | none =>
    have hr : ¬ runsOn s.cfg i = true := fun hr => h _ (exec_next_iff.mpr ⟨ha, hr, rfl⟩)
    cases i
    case setpixel | vline | hline =>
      simp only [gateOf, runsOn, decide_eq_true_eq] at ha hr
      simp [exec, execSetpixel, execVline, execHline, runPixelOp, ha, hr]
    case bitmap x y src w hh color =>
      simp only [gateOf] at ha
      cases hs : sourceBeyond s.cfg src.toNat w hh with
      | true => simp [exec, execBitmap, ha, hs]
      | false =>
        have hw : ¬ s.cfg.w % 2 = 0 := by simpa [runsOn, hs] using hr
        simp [exec, execBitmap, runPixelOp, ha, hs, hw]
    all_goals exact absurd rfl hr

/-- Nor does a step of an idle block that answers no next state poll it. -/
theorem step_withEngine_of_not_next {s : State} (hb : s.busy = false) (h : ∀ t, step s ≠ .next t) (e : Engine) :
    step (s.withEngine e) = step s := by
  cases hp : s.port with
  | nil => exact absurd (step_idle hb hp) (h s)
  | cons r rest =>
    cases hd : decode r.word with
    | error x => rw [step_unassigned hb hp hd, step_unassigned (s := s.withEngine e) hb hp hd]
    | ok i =>
      rw [step_accept hb hp hd] at h ⊢
      exact (step_accept (s := s.withEngine e) hb hp hd).trans (exec_withEngine_of_not_next h e)

/-- The engine that gives the listed answers and from then on always returns. -/
def Engine.late (script : List Bool) : Engine := { script := script, tail := true }

/-- An engine with no answer left returns. -/
theorem State.pollTransfer_prompt (u : State) :
    (u.withEngine (.late [])).pollTransfer = (true, u.withEngine (.late [])) := by
  cases hm : u.cfg.busMode with
  | bitbang => exact State.pollTransfer_bitbang hm
  | hw => exact State.pollTransfer_hw (s := u.withEngine (.late [])) hm

/-- A late engine returns, with some of its answers read, or the first of them was "not yet". -/
theorem State.pollTransfer_late (u : State) (script : List Bool) :
    (∃ rest, rest <:+ script ∧ (u.withEngine (.late script)).pollTransfer = (true, u.withEngine (.late rest))) ∨
    (∃ rest, script = false :: rest ∧ (u.withEngine (.late script)).pollTransfer = (false, u.withEngine (.late rest))) := by
  cases hm : u.cfg.busMode with
  | bitbang => exact .inl ⟨script, List.suffix_refl _, State.pollTransfer_bitbang hm⟩
  | hw =>
    have hpoll := State.pollTransfer_hw (s := u.withEngine (.late script)) hm
    match script with
    | [] => exact .inl ⟨[], List.suffix_refl _, hpoll⟩
    | true :: rest => exact .inl ⟨rest, List.suffix_cons _ _, hpoll⟩
    | false :: rest => exact .inr ⟨rest, rfl, hpoll⟩

/-! ### Through one call after another -/

/-- `v` is inside operation `i`, with the plan `p`, and no further request is at the port. -/
structure State.Alone (i : Instr) (p : Plan) (v : State) : Prop where
  busy : v.busy = true
  port : v.port = []
  req : decode v.req = .ok i
  plan : planOf i v = p

/-- After its last call an operation completes, whatever answers the engine has left. -/
theorem continueWith_nil_withEngine (i : Instr) (s v : State) (k : Nat) (e : Engine) :
    continueWith (planOf i s) k [] (v.withEngine e) = (v.complete (planOf i s)).withEngine e :=
  planOf_finish_withEngine i s { v with busy := false, seq := none } e

/-- The rest of an operation starts its next call and polls for it. -/
theorem continueWith_cons (p : Plan) (k : Nat) (c : Call) (cs : List Call) (v : State) :
    continueWith p k (c :: cs) v = if (v.startCall k c).pollTransfer.1 then
      continueWith p (k + 1) cs ((v.startCall k c).pollTransfer.2.endCall c) else (v.startCall k c).pollTransfer.2 := by
  rcases hq : (v.startCall k c).pollTransfer with ⟨_ | _, s'⟩ <;> simp [continueWith, runCalls, hq]

/-- A step from inside a call does what the operation would have done from that call on. -/
theorem step_startCall {v : State} {i : Instr} {p : Plan} {k : Nat} {c : Call} {cs : List Call} (h : v.Alone i p)
    (hcs : p.calls.drop k = c :: cs) : step (v.startCall k c) = .next (continueWith p k (c :: cs) v) := by
  obtain ⟨hb, hp, hd, rfl⟩ := h
  have hc : (planOf i v).calls[k]? = some c := by rw [← List.head?_drop, hcs]; rfl
  have hrest : (planOf i v).calls.drop (k + 1) = cs := by rw [← List.tail_drop, hcs]; rfl
  rw [step_engine (s := v.startCall k c) hb (by simp [State.impatient, hp]) (State.running_startCall hd hc), hrest,
    continueWith_cons]

/-- The rest of an operation with a late engine: after as many steps as the engine has answers left, at most, it is where a
prompt engine leaves it. A return goes on to the next call; a "not yet" takes one step and one answer. -/
theorem run_continueWith_late {i : Instr} {s : State} : ∀ (cs : List Call) (k : Nat) (v : State) (script : List Bool)
    (n : Nat), v.Alone i (planOf i s) → (planOf i s).calls.drop k = cs → script.length ≤ n →
    ∃ rest, rest <:+ script ∧ core.run n (continueWith (planOf i s) k cs (v.withEngine (.late script)))
      = .next ((continueWith (planOf i s) k cs (v.withEngine (.late []))).withEngine (.late rest))
  | [], k, v, script, n, hv, _, _ => by
    have hf := planOf_finish i s { v with busy := false, seq := none }
    refine ⟨script, List.suffix_refl _, ?_⟩
    rw [continueWith_nil_withEngine, continueWith_nil_withEngine]
    exact run_idle (s := (v.complete (planOf i s)).withEngine (.late script)) hf.busy (hf.port.trans hv.port) n
  | c :: cs, k, v, script, n, hv, hcs, hn => by
    have hend (e : Engine) : ((v.startCall k c).withEngine e).endCall c = ((v.startCall k c).endCall c).withEngine e := rfl
    have hstart (e : Engine) : (v.withEngine e).startCall k c = (v.startCall k c).withEngine e := rfl
    have hplan : planOf i (v.startCall k c) = planOf i s := (planOf_congr i rfl rfl rfl).trans hv.plan
    obtain ⟨rest, hrest, hpoll⟩ | ⟨rest, rfl, hpoll⟩ := (v.startCall k c).pollTransfer_late script
    · have hv' : ((v.startCall k c).endCall c).Alone i (planOf i s) := ⟨hv.busy, hv.port, hv.req, hplan⟩
      have hcs' : (planOf i s).calls.drop (k + 1) = cs := by rw [← List.tail_drop, hcs]; rfl
      have hlen : rest.length ≤ script.length := hrest.length_le
      obtain ⟨rest', hrest', hrun⟩ := run_continueWith_late cs (k + 1) _ rest n hv' hcs' (hlen.trans hn)
      refine ⟨rest', hrest'.trans hrest, ?_⟩
      simpa only [continueWith_cons, hstart, hend, hpoll, State.pollTransfer_prompt, if_true] using hrun
    · obtain _ | m := n
      · cases hn
      obtain ⟨rest', hrest', hrun⟩ := run_continueWith_late (c :: cs) k v rest m hv hcs (Nat.le_of_succ_le_succ hn)
      refine ⟨rest', hrest'.trans (List.suffix_cons _ _), ?_⟩
      have hwait : continueWith (planOf i s) k (c :: cs) (v.withEngine (.late (false :: rest)))
          = (v.withEngine (.late rest)).startCall k c := by
        rw [continueWith_cons, hstart, hpoll]
        rfl
      have hv' : (v.withEngine (.late rest)).Alone i (planOf i s) :=
        ⟨hv.busy, hv.port, hv.req, (planOf_withEngine ..).trans hv.plan⟩
      rw [hwait, run_of_next (step_startCall hv' hcs), hrun]
  termination_by cs _ _ script => cs.length + script.length

/-- A request that a prompt engine completes in one step is completed by a late one, in one step more than it has answers. -/
theorem run_late_of_next {s t : State} {r : HostReq} (hb : s.busy = false) (hp : s.port = [r]) (script : List Bool)
    (h : step (s.withEngine (.late [])) = .next t) :
    ∃ rest, rest <:+ script ∧
      core.run (script.length + 1) (s.withEngine (.late script)) = .next (t.withEngine (.late rest)) := by
  cases hd : decode r.word with
  | error x => cases (step_unassigned (s := s.withEngine (.late [])) hb hp hd).symm.trans h
  | ok i =>
    have hacc (e : Engine) : step (s.withEngine e) = exec i ((s.latch r []).withEngine e) :=
      step_accept (s := s.withEngine e) hb hp hd
    have hlate : step (s.withEngine (.late script))
        = .next (perform (planOf i (s.latch r [])) ((s.latch r []).withEngine (.late script))) := by
      rw [hacc] at h ⊢
      obtain ⟨ha, hr, -⟩ := exec_next_iff.mp h
      exact exec_next_iff.mpr ⟨ha, hr, by rw [planOf_withEngine]⟩
    rw [hacc] at h
    obtain ⟨-, rfl⟩ := exec_next h
    rw [run_of_next hlate, planOf_withEngine]
    exact run_continueWith_late _ 0 ((s.latch r []).accept _) script _ ⟨rfl, rfl, hd, planOf_congr i rfl rfl rfl⟩ rfl le_rfl

/-! ### The statements -/

/-- Settles O19, by the three things a step can do: wait, accept a request, or let the engine answer. The last two run the rest
of an operation from where the receiver has read whole frames. -/
theorem stepKeepsTheTracesTogether : Obligations.StepKeepsTheTracesTogether := by
  intro s t h htr hstep
  obtain ⟨-, -, rfl⟩ | ⟨hb, r, rest, i, -, hd, hx⟩ | ⟨hb, -, p, k, c, hr, hpoll⟩ := step_next hstep
  · exact htr
  · obtain ⟨-, rfl⟩ := exec_next hx
    exact (htr.accepted hb r rest _).continueWith (k := 0) (h.accepted hb hd rest _) (planOf_congr i rfl rfl rfl)
  · obtain ⟨i, hd, rfl, -⟩ := State.running_some hr
    obtain ⟨e, he⟩ := s.pollTransfer_snd
    obtain ⟨s', hs', rfl⟩ | ⟨s', hs', rfl⟩ := hpoll <;> rw [hs'] at he <;> subst he
    · exact htr.polled e
    · exact (htr.returned hb hr e).continueWith (h.returned hb hd c e) (planOf_congr i rfl rfl rfl)

/-- Settles O26: its plan is one call with DC low. -/
theorem sendcmdSendsOneCommandByte : Obligations.SendcmdSendsOneCommandByte :=
  ⟨fun _ h => decode_of_find rfl h, fun _ _ ha he => exec_sends_byte ha he rfl⟩

/-- Settles O27: its plan is one call with DC high. -/
theorem senddataSendsOneDataByte : Obligations.SenddataSendsOneDataByte :=
  ⟨fun _ h => decode_of_find rfl h, fun _ _ ha he => exec_sends_byte ha he rfl⟩

/-- Settles O29, from the levels after a call in either mode. -/
theorem pinLevelsAfterACall : Obligations.PinLevelsAfterACall := by
  refine ⟨fun _ _ => ⟨rfl, rfl, rfl⟩, fun cfg p dc bs b => ?_⟩
  obtain ⟨hcs, hdc⟩ := Pins.apply_call_cs_dc cfg dc bs b p
  refine ⟨hcs, hdc, fun h => ?_, fun h => ?_⟩
  · rw [Pins.apply_call_bitbang h]
    exact ⟨rfl, rfl⟩
  · rw [Pins.apply_call_hw h]
    exact ⟨rfl, rfl⟩

/-- Settles O30: 24 pin writes a byte, one of DC, and two of CS. -/
theorem pinWritesOfACall : Obligations.PinWritesOfACall := by
  intro cfg c h
  refine ⟨?_, fun e he => ?_⟩
  · simp [Call.events, Call.opening, closing, shift, h, shiftBitbang_length]
  · simp only [Call.events, Call.opening, closing, shift, h, List.cons_append, List.nil_append, List.mem_cons,
      List.mem_append, List.not_mem_nil, or_false] at he
    obtain rfl | rfl | he | rfl := he
    · exact ⟨_, _, rfl⟩
    · exact ⟨_, _, rfl⟩
    · exact exists_pin_of_mem_shiftBitbang he
    · exact ⟨_, _, rfl⟩

/-- Settles O59: a refusal or a fault comes before the engine is polled; each answer "not yet" costs one step, and the rest of
the operation is the same. -/
theorem stallOnlyDelays : Obligations.StallOnlyDelays := by
  intro s r script hb hp he
  have hs : s = (s.withEngine (.late [])).withEngine (.late script) := by
    show s = { s with engine := { script := script, tail := true } }
    rw [← he]
  have hstop (h : ∀ t, step (s.withEngine (.late [])) ≠ .next t) :
      core.run (script.length + 1) s = step (s.withEngine (.late [])) := by
    have hsame : step s = step (s.withEngine (.late [])) :=
      (congrArg step hs).trans (step_withEngine_of_not_next (s := s.withEngine (.late [])) hb h _)
    exact (run_of_not_next (fun t => hsame ▸ h t) _).trans hsame
  refine ⟨fun t h => ?_, fun x h => ?_, fun x h => ?_⟩
  · rw [hs]
    exact run_late_of_next hb hp script h
  · exact (hstop fun t ht => by cases h.symm.trans ht).trans h
  · exact (hstop fun t ht => by cases h.symm.trans ht).trans h

/-- Settles O28: the wire order of a byte's bits is 7 down to 0. -/
theorem shiftIsMsbFirstOrOneTransfer : Obligations.ShiftIsMsbFirstOrOneTransfer :=
  ⟨fun cfg bs h => by simp only [shift, h]; rfl, fun cfg bs h => by simp only [shift, h]⟩

/-- Settles O31: one call of the worked configuration. -/
theorem workedPinExample : Obligations.WorkedPinExample := by
  unfold Obligations.WorkedPinExample
  decide

end Sys2Proof.Machine

/-! ## The command encoder: the proofs of the statements of spec 41_command_encoder.md

First what an operation leaves when every transfer returns, with its reset pulse and its last act; then the frames of the
commands; then the tables of CFG that the encoder reads. -/

namespace Sys2Proof.Machine

/-! ### Completed operations -/

/-- After acceptance and all calls of a plan, before its last act: only the plan's frames were sent, after its reset pulse. -/
theorem State.accept_afterCalls_sentOnly (s : State) (p : Plan) : s.SentOnly ((s.accept p).afterCalls p.calls)
    ((if p.rst then [Event.rst] else []) ++ p.calls.map Call.frame) :=
  ⟨by simp, rfl, rfl, rfl, rfl, by simp, rfl, rfl, rfl, rfl, rfl, rfl, rfl⟩

/-- An admitted operation that CFG fits completes when every transfer returns: its last act on the state after its calls. -/
theorem exec_completes {i : Instr} {s : State} (ha : admission (gateOf i) s = none) (hr : runsOn s.cfg i = true)
    (he : s.EngineReturns) :
    exec i s = .next ((planOf i s).finish ((s.accept (planOf i s)).afterCalls (planOf i s).calls)) :=
  exec_next_iff.mpr ⟨ha, hr, (perform_completes _ _ he).symm⟩

/-- After an operation that only sends, the next one is admitted. -/
theorem State.Ready.afterCalls {s : State} (h : s.Ready) (calls : List Call) : (s.afterCalls calls).Ready := by
  obtain ⟨-, hok, hdone⟩ := h
  exact ⟨rfl, hok, hdone⟩

/-- An engine that withholds no answer withholds none of those left after some calls. -/
theorem State.EngineReturns.afterCalls {s : State} (h : s.EngineReturns) (calls : List Call) :
    (s.afterCalls calls).EngineReturns := by
  obtain hbitbang | ⟨hscript, htail⟩ := h
  · exact .inl hbitbang
  · cases hm : s.cfg.busMode with
    | bitbang => exact .inl hm
    | hw =>
      have hengine : (s.afterCalls calls).engine = s.engine.after calls.length := by
        simp only [State.afterCalls, hm, Engine.after]
      rw [State.EngineReturns, hengine]
      exact .inr ⟨List.all_eq_true.mpr fun x hx => List.all_eq_true.mp hscript x (List.mem_of_mem_drop hx), htail⟩

/-! ### The frames of the commands (R140, R155, R156) -/

/-- An admitted operation whose plan is one command sends its opcode and its parameters, and changes nothing else. -/
theorem exec_sends_cmd {i : Instr} {s : State} {c : Byte} (ps : List Byte) (he : s.EngineReturns) (ha : s.Ready)
    (hi : exec i s = runOp .afterBegin (sendPlan (cmd c ps)) s) :
    ∃ t, exec i s = .next t ∧ s.SentOnly t (evC c :: ps.map evD) := by
  have h := exec_sends he ha hi
  rwa [cmd_frames] at h

/-- The calls of BEGIN are the frames of its 21 commands. -/
@[simp] theorem beginCalls_frames (cfg : Cfg) : (beginCalls cfg).map Call.frame =
    beginKeys.flatMap (fun k => cmdFrames (cfg.opcode k.cmdKey) (cfg.init.get k)) := by
  simp [beginCalls, List.map_flatMap]

/-- What an admitted DISPLAY sends and leaves in FB depends on CFG and FB alone (R160, R210). -/
theorem exec_display_trace_fb {s : State} (flag : Bool) (ha : s.Ready) (he : s.EngineReturns) :
    ∃ t, exec (.display flag) s = .next t ∧ t.trace = s.trace ++ (flushCalls s.cfg s.fb).map Call.frame ∧
      t.fb = if flag then Mem.fill s.cfg.fbSize 0x00#8 else s.fb := by
  have hsent := s.accept_afterCalls_sentOnly (planDisplay s.cfg s.fb flag)
  refine ⟨_, exec_completes (admission_afterBegin.mpr ha) rfl he, ?_⟩
  cases flag <;> exact ⟨hsent.trace, rfl⟩

/-! ### The tables of CFG (R142, R149, R157) -/

theorem mem_beginKeys (k : BeginKey) : k ∈ beginKeys := by
  cases k <;> decide

/-- In a valid CFG every entry of `CFG.INIT` has as many bytes as its entry of `CFG.CMD` says (R242, item 5). -/
theorem Cfg.init_length_of_valid {cfg : Cfg} (h : cfg.valid = true) (k : BeginKey) :
    (cfg.init.get k).length = (cfg.cmd.get k.cmdKey).n := by
  simp only [Cfg.valid, Cfg.countsOk, Bool.and_eq_true, List.all_eq_true, beq_iff_eq, and_assoc] at h
  obtain ⟨-, -, -, -, hinit, -⟩ := h
  exact hinit k (mem_beginKeys k)

theorem Cfg.scrollCommands_standard {cfg : Cfg} (h : cfg.scrollFrames = .standard) (k : ScrollCfg) :
    cfg.scrollCommands k = scrollStandard cfg.h k := by
  simp only [Cfg.scrollCommands, h]

/-! ### The statements -/

/-- Settles O32: each plan is one command without parameters. -/
theorem switchOperationsSendOneCommand : Obligations.SwitchOperationsSendOneCommand :=
  ⟨fun _ h => decode_of_find rfl h, fun _ h => decode_of_find rfl h, fun _ h => decode_of_find rfl h,
    fun _ h => decode_of_find rfl h, fun _ ha he =>
      ⟨exec_sends_cmd [] he ha rfl, exec_sends_cmd [] he ha rfl, exec_sends_cmd [] he ha rfl,
        exec_sends_cmd [] he ha rfl⟩⟩

/-- Settles O33: its plan is the calls of `setwin`. -/
theorem setwinSendsColumnThenRow : Obligations.SetwinSendsColumnThenRow :=
  ⟨fun _ h => decode_of_find rfl h, fun s cs ce rs re ha he =>
    exec_sends (calls := setwin s.cfg ⟨cs, ce, rs, re⟩) he ha rfl⟩

/-- Settles O34: each plan is one command with the operands as its parameters. -/
theorem parameterOperationsPassBytesThrough : Obligations.ParameterOperationsPassBytesThrough :=
  ⟨fun _ h => decode_of_find rfl h, fun _ h => decode_of_find rfl h, fun _ h => decode_of_find rfl h,
    fun _ a b ha he =>
      ⟨exec_sends_cmd [a] he ha rfl, exec_sends_cmd [a, b] he ha rfl, exec_sends_cmd [a] he ha rfl⟩⟩

/-- Settles O35: its plan is one command, whose parameter count a valid CFG gives. -/
theorem selgraySendsTheConfiguredTable : Obligations.SelgraySendsTheConfiguredTable :=
  ⟨fun _ h => decode_of_find rfl h, fun s ha he =>
    ⟨exec_sends_cmd s.cfg.init.graySelect he ha rfl, fun hv => Cfg.init_length_of_valid hv .graySelect⟩⟩

/-- Settles O36: its plan is the configured commands, and the default function has four cases. -/
theorem cfgscrollSendsTheScrollFrames : Obligations.CfgscrollSendsTheScrollFrames := by
  refine ⟨fun _ h => decode_of_find rfl h, fun s start stop left diagonal ha he => ?_, fun c start stop hc => ?_⟩
  · have h := exec_sends (i := .cfgscroll start stop left diagonal)
      (calls := cmds (s.cfg.scrollCommands ⟨diagonal, left, start, stop⟩)) he ha rfl
    rwa [cmds_frames] at h
  · simp only [Cfg.scrollCommands_standard hc]
    exact ⟨rfl, rfl, rfl, rfl⟩

/-- Settles O37: a second BEGIN is refused (`initDoneGatesEveryOperation`); the first completes with its pulse and its frames
sent, and its last act writes INIT_DONE only. -/
theorem beginSendsTheFixedSequence : Obligations.BeginSendsTheFixedSequence := by
  obtain ⟨-, -, -, -, -, hsecond⟩ := initDoneGatesEveryOperation
  refine ⟨fun s ha => ?_, fun _ h => decode_of_find rfl h, fun s ha he => ?_⟩
  · obtain ⟨hb, hc, hd⟩ := ha
    exact hsecond s hb hc hd
  · have hsent := s.accept_afterCalls_sentOnly (planBegin s.cfg)
    simp only [planBegin, beginCalls_frames] at hsent
    exact ⟨_, exec_completes (admission_beforeBegin.mpr ha) rfl he, rfl, hsent⟩

/-- Settles O53: a SETWIN keeps CFG and FB, which are all that DISPLAY reads. -/
theorem setwinDoesNotChangeDisplay : Obligations.SetwinDoesNotChangeDisplay := by
  intro s cs ce rs re flag ha he
  have hset : exec (.setwin cs ce rs re) s = .next (s.afterCalls (setwin s.cfg ⟨cs, ce, rs, re⟩)) :=
    runOp_sendPlan (admission_afterBegin.mpr ha) he
  obtain ⟨u, hu, hutrace, hufb⟩ := exec_display_trace_fb flag (ha.afterCalls _) (he.afterCalls _)
  obtain ⟨v, hv, hvtrace, hvfb⟩ := exec_display_trace_fb flag ha he
  exact ⟨_, u, v, _, hset, hu, hv, hutrace, hvtrace, hufb.trans hvfb.symm⟩

end Sys2Proof.Machine

/-! ## Framebuffer primitives: the proofs of the statements of spec 42_framebuffer_primitives.md

First the framebuffer as a memory that is written twice or filled; then one pixel, and a horizontal run by pixels and by whole
bytes; then what each of the six primitives answers. -/

namespace Sys2Proof.Machine

/-! ### The framebuffer as a memory -/

/-- Of two writes to one address the second counts. -/
theorem Mem.write_write {m : Mem} (h : m.wf = true) (a : Nat) (u v : Byte) : (m.write a u).write a v = m.write a v := by
  have hu := Mem.write_wf a u h
  refine Mem.ext_read (Mem.write_wf a v hu) (Mem.write_wf a v h) fun b => ?_
  rw [Mem.read_write a b v hu, Mem.read_write a b u h, Mem.read_write a b v h]
  by_cases hb : b = a <;> simp only [hb, if_true, if_false]

/-- Writing back the byte just read changes nothing. -/
theorem Mem.write_read {m : Mem} (h : m.wf = true) (a : Nat) : m.write a (m.read a) = m := by
  refine Mem.ext_read (Mem.write_wf a _ h) h fun b => ?_
  rw [Mem.read_write a b _ h]
  split
  · next hb => rw [hb]
  · rfl

/-- A memory of `n` bytes lists nothing from `n` on. -/
theorem Mem.read_of_within {n a : Nat} (ha : n ≤ a) : ∀ {m : Mem}, m.within n = true → m.read a = unlisted
  | [], _ => rfl
  | (k, v) :: rest, h => by
    obtain ⟨hk, hrest⟩ := (Mem.within_cons k v rest n).mp h
    have hne : k ≠ a := by omega
    simpa only [Mem.read, hne, if_false] using Mem.read_of_within ha hrest

/-- Filling writes every byte of the memory. -/
theorem Mem.read_fill_of_lt {n a : Nat} (v : Byte) (ha : a < n) : (Mem.fill n v).read a = v := by
  rw [Mem.read_fill, if_pos ha]

/-- Filling changes nothing beyond the memory. -/
theorem Mem.read_fill_of_ge {m : Mem} {n a : Nat} (v : Byte) (h : m.within n = true) (ha : n ≤ a) :
    (Mem.fill n v).read a = m.read a := by
  rw [Mem.read_fill, if_neg (Nat.not_lt.mpr ha), Mem.read_of_within ha h]

/-- The block a filled memory is sent as (R56, R187). -/
theorem Mem.bytes_fill (n : Nat) (v : Byte) : (Mem.fill n v).bytes n = List.replicate n v :=
  List.eq_replicate_iff.mpr ⟨by simp [Mem.bytes], fun b hb => by
    obtain ⟨a, ha, rfl⟩ := List.mem_map.mp hb
    exact Mem.read_fill_of_lt v (List.mem_range.mp ha)⟩

/-! ### The two nibbles of a byte (R52, R180) -/

theorem getnib_bothNibbles (v : Nibble) (x : Nat) : getnib (bothNibbles v) x = v := by
  unfold getnib bothNibbles
  split
  · exact BitVec.extractLsb'_append_eq_left
  · exact BitVec.extractLsb'_append_eq_right

theorem append_nibbles (b : Byte) : b.extractLsb' 4 4 ++ b.extractLsb' 0 4 = b :=
  (BitVec.extractLsb'_append_extractLsb'_eq_extractLsb' rfl).trans BitVec.extractLsb'_eq_self

theorem getnib_two_mul (b : Byte) (k : Nat) : getnib b (2 * k) = b.extractLsb' 4 4 :=
  if_pos (Nat.mul_mod_right 2 k)

theorem getnib_two_mul_add_one (b : Byte) (k : Nat) : getnib b (2 * k + 1) = b.extractLsb' 0 4 :=
  if_neg (by omega)

/-- Of two writes to one nibble the second counts. -/
theorem setnib_setnib (b : Byte) (x : Nat) (u v : Nibble) : setnib (setnib b x u) x v = setnib b x v := by
  unfold setnib
  split
  · rw [BitVec.extractLsb'_append_eq_right]
  · rw [BitVec.extractLsb'_append_eq_left]

/-- Writing both nibbles leaves nothing of the byte. -/
theorem setnib_pair (b : Byte) (k : Nat) (u v : Nibble) : setnib (setnib b (2 * k) u) (2 * k + 1) v = u ++ v := by
  have heven : 2 * k % 2 = 0 := by omega
  have hodd : ¬ (2 * k + 1) % 2 = 0 := by omega
  simp only [setnib, heven, hodd, if_true, if_false, BitVec.extractLsb'_append_eq_left]

/-- INV is `15 - old`: the bits of a nibble complemented (R180). -/
theorem toNat_applyColor_inv (cfg : Cfg) (old : Nibble) : (applyColor cfg old .inv).toNat = 15 - old.toNat := by
  have hnot : applyColor cfg old .inv = ~~~old := BitVec.xor_allOnes
  rw [hnot, BitVec.toNat_not]

theorem applyColor_inv_inv (cfg : Cfg) (old : Nibble) : applyColor cfg (applyColor cfg old .inv) .inv = old := by
  simp only [applyColor, BitVec.xor_assoc, BitVec.xor_self, BitVec.xor_zero]

/-! ### One pixel (R180, R181) -/

/-- A pixel is outside the display on one of the four sides. -/
theorem inBounds_eq_false {cfg : Cfg} {x y : Int} :
    inBounds cfg x y = false ↔ x < 0 ∨ (cfg.w : Int) ≤ x ∨ y < 0 ∨ (cfg.h : Int) ≤ y := by
  simp only [inBounds, Bool.and_eq_false_iff, decide_eq_false_iff_not]
  omega

theorem setpix_of_not_inBounds {cfg : Cfg} {x y : Int} (color : Color) (fb : Mem) (h : inBounds cfg x y = false) :
    setpix cfg color fb x y = fb := by
  simp [setpix, h]

theorem setpix_of_inBounds {cfg : Cfg} {x y : Int} (color : Color) (fb : Mem) (h : inBounds cfg x y = true) :
    setpix cfg color fb x y = updatePixel cfg color fb x.toNat y.toNat := by
  simp [setpix, h]

/-- A second update of one pixel applies its colour to the first one's result. -/
theorem updatePixel_updatePixel {cfg : Cfg} (c c' : Color) {fb : Mem} (h : fb.wf = true) (x y : Nat) :
    updatePixel cfg c' (updatePixel cfg c fb x y) x y = fb.write (idx cfg x y)
      (setnib (fb.read (idx cfg x y)) x (applyColor cfg (applyColor cfg (pixel cfg fb x y) c) c')) := by
  rw [updatePixel, read_updatePixel_same h, getnib_setnib_same, setnib_setnib, updatePixel, Mem.write_write h]

/-- Writing the level a pixel has changes nothing (R181 (c)). -/
theorem setpix_raw_pixel (cfg : Cfg) {fb : Mem} (h : fb.wf = true) (x y : Int) :
    setpix cfg (.raw (pixel cfg fb x.toNat y.toNat)) fb x y = fb := by
  cases hb : inBounds cfg x y with
  | false => exact setpix_of_not_inBounds _ fb hb
  | true => rw [setpix_of_inBounds _ fb hb, updatePixel, applyColor, pixel, setnib_getnib, Mem.write_read h]

/-- INV twice restores the framebuffer (R181 (d)). -/
theorem setpix_inv_inv (cfg : Cfg) {fb : Mem} (h : fb.wf = true) (x y : Int) :
    setpix cfg .inv (setpix cfg .inv fb x y) x y = fb := by
  cases hb : inBounds cfg x y with
  | false => simp only [setpix_of_not_inBounds .inv _ hb]
  | true =>
    simp only [setpix_of_inBounds .inv _ hb]
    rw [updatePixel_updatePixel .inv .inv h, applyColor_inv_inv, pixel, setnib_getnib, Mem.write_read h]

/-! ### A horizontal run by pixels and by bytes (R183, R184) -/

/-- The integers of a range that starts at 0 or above, as naturals. -/
theorem intsFrom_of_nonneg {a : Int} (ha : 0 ≤ a) (b : Int) :
    intsFrom a b = (List.range' a.toNat (b.toNat - a.toNat)).map Nat.cast := by
  have hlen : (b - a).toNat = b.toNat - a.toNat := by omega
  rw [intsFrom, hlen, List.range'_eq_map_range, List.map_map]
  refine List.map_congr_left fun k _ => ?_
  simp [Int.toNat_of_nonneg ha]

/-- Pixels of one row, all inside the display, are updated one after another. -/
theorem setpixels_row {cfg : Cfg} {color : Color} {y : Int} (hy : 0 ≤ y) (hyh : y < cfg.h) :
    ∀ (xs : List Nat) (fb : Mem), (∀ x ∈ xs, x < cfg.w) →
      setpixels cfg color (xs.map fun x : Nat => ((x : Int), y)) fb
        = xs.foldl (fun m x => updatePixel cfg color m x y.toNat) fb
  | [], _, _ => rfl
  | x :: xs, fb, hxs => by
    have hx : x < cfg.w := hxs x List.mem_cons_self
    have hin : inBounds cfg x y = true := inBounds_iff.mpr ⟨x, y.toNat, rfl, by omega, hx, by omega⟩
    have hpix := setpix_of_inBounds color fb hin
    rw [Int.toNat_natCast] at hpix
    rw [List.foldl_cons, ← hpix]
    exact setpixels_row hy hyh xs _ fun x' hx' => hxs x' (List.mem_cons_of_mem _ hx')

/-- What HLINE draws, as updates of the pixels from the clipped start to the clipped end. -/
theorem setpixels_hlinePixels {cfg : Cfg} {x y len : Int} (color : Color) (fb : Mem) (hlen : 0 < len) (hy : 0 ≤ y)
    (hyh : y < cfg.h) :
    setpixels cfg color (hlinePixels cfg x y len) fb
      = (List.range' (max x 0).toNat ((min (x + len) cfg.w).toNat - (max x 0).toNat)).foldl
          (fun m k => updatePixel cfg color m k y.toNat) fb := by
  have hrun : ¬ (len ≤ 0 ∨ y < 0 ∨ (cfg.h : Int) ≤ y) := by omega
  rw [hlinePixels, if_neg hrun, intsFrom_of_nonneg (le_max_right x 0), List.map_map]
  refine setpixels_row hy hyh _ fb fun k hk => ?_
  rw [List.mem_range'_1] at hk
  omega

theorem range'_mod_two (x p : Nat) : List.range' x (p % 2) = if p % 2 = 1 then [x] else [] := by
  obtain hp | hp := Nat.mod_two_eq_zero_or_one p <;> rw [hp] <;> rfl

/-- A run is the pixel at an odd start, the pairs of pixels that share a byte, and the pixel at an odd end. -/
theorem range'_eq_odd_pairs_odd {x0 x1 : Nat} (h : x0 < x1) :
    List.range' x0 (x1 - x0) = (if x0 % 2 = 1 then [x0] else [])
      ++ List.range' (2 * ((x0 + 1) / 2)) (2 * (x1 / 2 - (x0 + 1) / 2)) ++ (if x1 % 2 = 1 then [x1 - 1] else []) := by
  have hlen : x1 - x0 = x0 % 2 + 2 * (x1 / 2 - (x0 + 1) / 2) + x1 % 2 := by omega
  have hpairs : 2 * ((x0 + 1) / 2) = x0 + x0 % 2 := by omega
  rw [← range'_mod_two, ← range'_mod_two, hpairs, List.range'_append_1, hlen, ← List.range'_append_1]
  obtain heven | hodd := Nat.mod_two_eq_zero_or_one x1
  · rw [heven]
    rfl
  · have hlast : x1 - 1 = x0 + (x0 % 2 + 2 * (x1 / 2 - (x0 + 1) / 2)) := by omega
    rw [hlast]

/-- The byte operation applies the colour to both nibbles (R184). -/
theorem updateByte_eq_write (cfg : Cfg) (color : Color) (fb : Mem) (j : Nat) :
    updateByte cfg color fb j = fb.write j
      (applyColor cfg ((fb.read j).extractLsb' 4 4) color ++ applyColor cfg ((fb.read j).extractLsb' 0 4) color) := by
  cases color
  case inv =>
    have hxor : ((fb.read j).extractLsb' 4 4 ^^^ 0xF#4) ++ ((fb.read j).extractLsb' 0 4 ^^^ 0xF#4)
        = fb.read j ^^^ 0xFF#8 := by
      rw [← BitVec.xor_append, append_nibbles]
      rfl
    exact congrArg (fb.write j) hxor.symm
  all_goals rfl

/-- Updating the two pixels of a byte is the byte operation (R184). -/
theorem updatePixel_pair {cfg : Cfg} (color : Color) {fb : Mem} (h : fb.wf = true) (k y : Nat) :
    updatePixel cfg color (updatePixel cfg color fb (2 * k) y) (2 * k + 1) y
      = updateByte cfg color fb (y * cfg.stride + k) := by
  have heven : idx cfg (2 * k) y = y * cfg.stride + k := by simp [idx, Cfg.stride]
  have hodd : idx cfg (2 * k + 1) y = idx cfg (2 * k) y := by simp only [idx]; omega
  rw [updatePixel, hodd, read_updatePixel_same h, getnib_setnib_other _ (2 * k) (2 * k + 1) _ (by omega), setnib_pair,
    updatePixel, Mem.write_write h, updateByte_eq_write, pixel, heven, getnib_two_mul, getnib_two_mul_add_one]

theorem foldl_updatePixel_wf {cfg : Cfg} {color : Color} {y : Nat} : ∀ (xs : List Nat) {fb : Mem}, fb.wf = true →
    (xs.foldl (fun m x => updatePixel cfg color m x y) fb).wf = true
  | [], _, h => h
  | _ :: xs, _, h => foldl_updatePixel_wf xs (updatePixel_wf h)

/-- Updating the pixels of `n` whole bytes is `n` byte operations (R184). -/
theorem foldl_updatePixel_pairs {cfg : Cfg} (color : Color) {fb : Mem} (h : fb.wf = true) (k y : Nat) : ∀ n : Nat,
    (List.range' (2 * k) (2 * n)).foldl (fun m x => updatePixel cfg color m x y) fb
      = (List.range n).foldl (fun m i => updateByte cfg color m (y * cfg.stride + (k + i))) fb
  | 0 => rfl
  | n + 1 => by
    have hlast : List.range' (2 * k) (2 * (n + 1)) = List.range' (2 * k) (2 * n) ++ [2 * (k + n), 2 * (k + n) + 1] := by
      rw [Nat.mul_add 2 k n]
      exact List.range'_append_1.symm
    rw [hlast, List.range_succ, List.foldl_append, List.foldl_append, ← foldl_updatePixel_pairs color h k y n]
    exact updatePixel_pair color (foldl_updatePixel_wf _ h) (k + n) y

/-- The whole-byte form of a run, read as updates of its pixels in order (R184). -/
theorem runByBytes_eq_foldl {cfg : Cfg} (color : Color) {fb : Mem} (h : fb.wf = true) (x0 x1 y : Nat) :
    runByBytes cfg color x0 x1 y fb
      = (List.range' x0 (x1 - x0)).foldl (fun m x => updatePixel cfg color m x y) fb := by
  by_cases hx : x0 < x1
  · simp only [runByBytes, hx, and_true]
    rw [range'_eq_odd_pairs_odd hx, List.foldl_append, List.foldl_append, foldl_updatePixel_pairs]
    · split <;> split <;> rfl
    · exact foldl_updatePixel_wf _ h
  · have hempty : x1 - x0 = 0 := by omega
    have hmiddle : x1 / 2 - (x0 + 1) / 2 = 0 := by omega
    simp only [runByBytes, hx, and_false, if_false, hempty, hmiddle]
    rfl

/-! ### The listed pixels (R182, R183, R185) -/

/-- Pixels listed once each: the colour is applied once to those that meet `P`, and to no other. -/
theorem pixel_setpixels_iff {cfg : Cfg} {color : Color} {fb : Mem} {ps : List (Int × Int)} {px py : Nat} {P : Prop}
    [Decidable P] (hwf : fb.wf = true) (hw : cfg.w % 2 = 0) (hpx : px < cfg.w) (hpy : py < cfg.h) (hn : ps.Nodup)
    (hmem : ((px : Int), (py : Int)) ∈ ps ↔ P) :
    pixel cfg (setpixels cfg color ps fb) px py
      = if P then applyColor cfg (pixel cfg fb px py) color else pixel cfg fb px py :=
  (pixel_setpixels hw hpx hpy ps hn hwf).trans (if_congr hmem rfl rfl)

/-- A bitmap of a non-positive size has no pixel (R185). -/
theorem bitmapPixels_of_nonpos {w h : Int} (hs : w ≤ 0 ∨ h ≤ 0) (cfg : Cfg) (bmp : Mem) (x y : Int) (src : Nat) :
    bitmapPixels cfg bmp x y src w h = [] := by
  refine List.eq_nil_iff_forall_not_mem.mpr fun p hp => ?_
  obtain ⟨i, j, hi, hj, -⟩ := mem_bitmapPixels.mp hp
  omega

/-! ### What the six primitives answer (R189) -/

/-- The state after an operation that drew `fb`: `perform_drawPlan` says that every drawing plan ends in one. -/
def State.drew (s : State) (fb : Mem) : State := { s with fb := fb, busy := false, seq := none }

@[simp] theorem State.drew_cfg (s : State) (fb : Mem) : (s.drew fb).cfg = s.cfg := rfl
@[simp] theorem State.drew_trace (s : State) (fb : Mem) : (s.drew fb).trace = s.trace := rfl
@[simp] theorem State.drew_fb (s : State) (fb : Mem) : (s.drew fb).fb = fb := rfl

theorem State.drew_fbOnly (s : State) (fb : Mem) : s.FbOnly (s.drew fb) := rfl

/-- After an operation that only draws, the next one is admitted. -/
theorem State.Ready.drew {s : State} (h : s.Ready) (fb : Mem) : (s.drew fb).Ready := by
  obtain ⟨-, hok, hdone⟩ := h
  exact ⟨rfl, hok, hdone⟩

/-- An admitted operation that only draws, and that CFG fits, completes at once. -/
theorem exec_draws {i : Instr} {s : State} {f : Mem → Mem} (ha : admission (gateOf i) s = none)
    (hr : runsOn s.cfg i = true) (hp : planOf i s = drawPlan f) : exec i s = .next (s.drew (f s.fb)) :=
  exec_next_iff.mpr ⟨ha, hr, by rw [hp, perform_drawPlan, State.drew]⟩

section Primitives
variable {s : State} (ha : s.Ready) (hw : s.cfg.w % 2 = 0)
include ha

theorem exec_fill (v : Nibble) : exec (.fill v) s = .next (s.drew (Mem.fill s.cfg.fbSize (bothNibbles v))) :=
  exec_draws (i := .fill v) (admission_afterBegin.mpr ha) rfl rfl

theorem exec_clear : exec .clear s = .next (s.drew (Mem.fill s.cfg.fbSize 0x00#8)) :=
  exec_draws (i := .clear) (admission_afterBegin.mpr ha) rfl rfl

include hw

theorem exec_setpixel (x y : Int) (color : Color) :
    exec (.setpixel x y color) s = .next (s.drew (setpix s.cfg color s.fb x y)) :=
  exec_draws (i := .setpixel x y color) (f := fun fb => setpix s.cfg color fb x y) (admission_afterBegin.mpr ha)
    (decide_eq_true hw) rfl

theorem exec_vline (x y len : Int) (color : Color) :
    exec (.vline x y len color) s = .next (s.drew (setpixels s.cfg color (vlinePixels s.cfg x y len) s.fb)) :=
  exec_draws (i := .vline x y len color) (admission_afterBegin.mpr ha) (decide_eq_true hw) rfl

theorem exec_hline (x y len : Int) (color : Color) :
    exec (.hline x y len color) s = .next (s.drew (setpixels s.cfg color (hlinePixels s.cfg x y len) s.fb)) :=
  exec_draws (i := .hline x y len color) (admission_afterBegin.mpr ha) (decide_eq_true hw) rfl

theorem exec_bitmap {src : Arg} {w h : Int} (hs : sourceBeyond s.cfg src.toNat w h = false) (x y : Int) (color : Color) :
    exec (.bitmap x y src w h color) s
      = .next (s.drew (setpixels s.cfg color (bitmapPixels s.cfg s.bmp x y src.toNat w h) s.fb)) :=
  exec_draws (i := .bitmap x y src w h color) (admission_afterBegin.mpr ha) (by simp [runsOn, hs, hw]) rfl

end Primitives

/-- An admitted BITMAP whose source leaves BMP is refused (R55). -/
theorem exec_bitmap_of_sourceBeyond {s : State} (ha : s.Ready) {src : Arg} {w h : Int}
    (hs : sourceBeyond s.cfg src.toNat w h = true) (x y : Int) (color : Color) :
    exec (.bitmap x y src w h color) s = .refused .bitmapBeyondSource := by
  simp [exec, execBitmap, admission_afterBegin.mpr ha, hs]

/-! ### What DISPLAY sends (R210) -/

/-- A DISPLAY ends with write-RAM and the framebuffer as one block (R210). -/
theorem flushCalls_frames (cfg : Cfg) (fb : Mem) :
    (flushCalls cfg fb).map Call.frame
      = (setwin cfg cfg.fullWin).map Call.frame ++ [evC (cfg.opcode .writeRam), evDB (fb.bytes cfg.fbSize)] := by
  simp only [flushCalls, List.map_append, List.append_assoc]
  rfl

/-! ### The statements -/

/-- Settles O41: INV complements the nibble, and `setpix` tests the bounds first. -/
theorem colourResolution : Obligations.ColourResolution := by
  refine ⟨fun cfg old n => ⟨rfl, rfl, rfl, toNat_applyColor_inv cfg old, rfl⟩, fun cfg color fb x y => ?_⟩
  cases hb : inBounds cfg x y with
  | false => rw [setpix_of_not_inBounds color fb hb, if_pos (inBounds_eq_false.mp hb)]
  | true =>
    have hin : ¬ (x < 0 ∨ (cfg.w : Int) ≤ x ∨ y < 0 ∨ (cfg.h : Int) ≤ y) := by simp [← inBounds_eq_false, hb]
    rw [setpix_of_inBounds color fb hb, if_neg hin, updatePixel]

/-- Settles O42: SETPIXEL is one `setpix`, which reaches one nibble; INV is its own inverse. -/
theorem setpixelWritesOnePixel : Obligations.SetpixelWritesOnePixel := by
  refine ⟨fun _ h => decode_of_find rfl h, fun s x y color ha hw hwf => ?_, fun s x y ha hw hwf => ?_⟩
  · refine ⟨_, exec_setpixel ha hw x y color, s.drew_fbOnly _, fun hout => ?_, fun px py hpx hpy => ?_,
      fun a hne => ?_, ?_⟩
    · exact setpix_of_not_inBounds color s.fb (inBounds_eq_false.mpr hout)
    · exact (pixel_setpix hwf hw hpx hpy).trans (if_congr (and_congr eq_comm eq_comm) rfl rfl)
    · exact read_setpix_other hwf fun _ => hne
    · rintro rfl
      exact setpix_raw_pixel s.cfg hwf x y
  · exact ⟨_, _, exec_setpixel ha hw x y .inv, exec_setpixel (ha.drew _) hw x y .inv, setpix_inv_inv s.cfg hwf x y⟩

/-- Settles O43: VLINE sets each pixel of the clipped run once (`vlinePixels_nodup`). -/
theorem vlineWritesTheClippedRun : Obligations.VlineWritesTheClippedRun := by
  refine ⟨fun _ h => decode_of_find rfl h, fun s x y len color ha hw hwf =>
    ⟨_, exec_vline ha hw x y len color, s.drew_fbOnly _, fun px py hpx hpy => ?_, fun a hne => ?_⟩⟩
  · refine pixel_setpixels_iff hwf hw hpx hpy (vlinePixels_nodup s.cfg x y len) (mem_vlinePixels.trans ?_)
    omega
  · exact read_setpixels_other _ hwf fun p hp _ => hne p hp

/-- Settles O44: HLINE sets each pixel of the clipped run once (`hlinePixels_nodup`), all of them in one row. -/
theorem hlineWritesTheClippedRun : Obligations.HlineWritesTheClippedRun := by
  refine ⟨fun _ h => decode_of_find rfl h, fun s x y len color ha hw hwf =>
    ⟨_, exec_hline ha hw x y len color, s.drew_fbOnly _, fun px py hpx hpy => ?_, fun a hne => ?_⟩⟩
  · refine pixel_setpixels_iff hwf hw hpx hpy (hlinePixels_nodup s.cfg x y len) (mem_hlinePixels.trans ?_)
    omega
  · exact read_setpixels_other _ hwf fun p hp _ => hne p hp

/-- Settles O45: both forms update the pixels of the clipped run in order. -/
theorem hlineByBytesIsHlineByPixels : Obligations.HlineByBytesIsHlineByPixels := by
  intro cfg x y len color fb _ hwf hlen hy hyh
  rw [setpixels_hlinePixels color fb hlen hy hyh, runByBytes_eq_foldl color hwf]

/-- Settles O46: the pixels under set source bits are set once each (`bitmapPixels_nodup`). -/
theorem bitmapDrawsUnderSetBits : Obligations.BitmapDrawsUnderSetBits := by
  refine ⟨fun _ h => decode_of_find rfl h, fun s x y src w h color ha hs => exec_bitmap_of_sourceBeyond ha hs x y color,
    fun s x y src w h color ha hw hwf hs => ⟨_, exec_bitmap ha hw hs x y color, s.drew_fbOnly _, fun hsize => ?_,
      fun px py hpx hpy => ?_, fun a hne => read_setpixels_other _ hwf hne⟩⟩
  · rw [bitmapPixels_of_nonpos hsize]
    rfl
  · have hpix := pixel_setpixels (color := color) hw hpx hpy _
      (bitmapPixels_nodup s.cfg s.bmp x y src.toNat w h) hwf
    exact ⟨fun hset => hpix.trans (if_pos (mem_bitmapPixels.mpr hset)),
      fun hclear => hpix.trans (if_neg (mt mem_bitmapPixels.mp hclear))⟩

/-- Settles O48: FILL leaves a filled memory, and a DISPLAY after it sends that memory's bytes. -/
theorem fillWritesEveryByte : Obligations.FillWritesEveryByte := by
  refine ⟨fun _ h => decode_of_find rfl h, fun s v ha => ?_, fun s v ha he => ?_⟩
  · refine ⟨_, exec_fill ha v, s.drew_fbOnly _, fun a hlt => Mem.read_fill_of_lt _ hlt,
      fun hin a hge => Mem.read_fill_of_ge _ hin hge, fun hw px py hpx hpy => ?_⟩
    rw [State.drew_fb, pixel, Mem.read_fill_of_lt _ (idx_lt_fbSize hw hpx hpy), getnib_bothNibbles]
  · obtain ⟨u, hu, htrace, -⟩ := exec_display_trace_fb false (ha.drew (Mem.fill s.cfg.fbSize (bothNibbles v))) he
    simp only [State.drew_cfg, State.drew_trace, State.drew_fb, flushCalls_frames, Mem.bytes_fill] at htrace
    exact ⟨_, u, exec_fill ha v, hu, _, htrace.trans (List.append_assoc ..).symm⟩

/-- Settles O49: CLEAR leaves a memory filled with 0x00. -/
theorem clearWritesZeroToEveryByte : Obligations.ClearWritesZeroToEveryByte :=
  ⟨fun _ h => decode_of_find rfl h, fun s ha =>
    ⟨_, exec_clear ha, s.drew_fbOnly _, fun _ hlt => Mem.read_fill_of_lt 0x00#8 hlt,
      fun hin _ hge => Mem.read_fill_of_ge 0x00#8 hin hge⟩⟩

end Sys2Proof.Machine

/-! ## Display flush: the proofs of the statements of spec 43_display_flush.md

First the state a DISPLAY ends in; then the pin writes of whole calls, and of the eight calls of a flush. -/

namespace Sys2Proof.Machine

/-! ### What DISPLAY answers (R210) -/

/-- Without a reset pulse, acceptance leaves no mark on the state after the calls. -/
theorem State.accept_afterCalls {p : Plan} (h : p.rst = false) (s : State) (cs : List Call) :
    (s.accept p).afterCalls cs = s.afterCalls cs := by
  simp [State.accept, State.afterCalls, h]

/-- An admitted DISPLAY, when every transfer returns: its calls sent, and after them FB cleared if the flag is set. -/
theorem exec_display {s : State} (ha : s.Ready) (he : s.EngineReturns) (flag : Bool) :
    exec (.display flag) s
      = .next { s.afterCalls (flushCalls s.cfg s.fb) with
          fb := if flag then Mem.fill s.cfg.fbSize 0x00#8 else s.fb } := by
  rw [exec_completes (i := .display flag) (admission_afterBegin.mpr ha) rfl he, State.accept_afterCalls rfl]
  cases flag <;> rfl

/-! ### The pin writes of whole calls (R121, R214) -/

/-- Bit-banged calls cost 24 pin writes a byte and three a call, whatever the bytes are. -/
theorem length_events_calls {cfg : Cfg} (h : cfg.busMode = .bitbang) : ∀ cs : List Call,
    (cs.flatMap (Call.events cfg)).length = 24 * (cs.map (fun c => c.bytes.length)).sum + 3 * cs.length
  | [] => rfl
  | c :: rest => by
    obtain ⟨hcall, -⟩ := pinWritesOfACall cfg c h
    rw [List.flatMap_cons, List.length_append, hcall, length_events_calls h rest, List.map_cons, List.sum_cons,
      List.length_cons]
    omega

/-- A flush is seven calls of one byte and one of all of FB. -/
theorem flushCalls_byte_counts (cfg : Cfg) (fb : Mem) :
    (flushCalls cfg fb).map (fun c => c.bytes.length) = List.replicate 7 1 ++ [cfg.fbSize] := by
  simp [flushCalls, setwin, cmd, sendcmd, senddata, sendblk, Mem.bytes, List.replicate]

theorem length_flushCalls (cfg : Cfg) (fb : Mem) : (flushCalls cfg fb).length = 8 := rfl

/-- The pin writes of a bit-banged flush depend on the size of FB alone (R214). -/
theorem length_flush_events {cfg : Cfg} (h : cfg.busMode = .bitbang) (fb : Mem) :
    ((flushCalls cfg fb).flatMap (Call.events cfg)).length = 24 * (7 + cfg.fbSize) + 3 * 8 := by
  rw [length_events_calls h, flushCalls_byte_counts, length_flushCalls, List.sum_append, List.sum_replicate,
    List.sum_singleton]
  rfl

/-! ### The statements -/

/-- Settles O51: its calls are sent from FB as it was; only the clear after them writes FB. -/
theorem displaySendsTheWholeFramebuffer : Obligations.DisplaySendsTheWholeFramebuffer := by
  refine ⟨fun _ h => decode_of_find rfl h, fun s flag ha he =>
    ⟨_, exec_display ha he flag, s.afterCalls_sentOnly _, ?_, ?_⟩⟩
  · rintro rfl
    rfl
  · rintro rfl
    exact ⟨fun _ hlt => Mem.read_fill_of_lt 0x00#8 hlt, fun hin _ hge => Mem.read_fill_of_ge 0x00#8 hin hge⟩

/-- Settles O52: the window is the six frames before write-RAM. -/
theorem displayPinWrites : Obligations.DisplayPinWrites := by
  intro s flag ha hm
  refine ⟨_, exec_display ha (.inl hm) flag, ?_, (setwin s.cfg s.cfg.fullWin).map Call.frame, s.fb.bytes s.cfg.fbSize,
    ?_, rfl, ?_⟩
  · rw [State.afterCalls_pinTrace, List.length_append, length_flush_events hm]
  · rw [State.afterCalls_trace, flushCalls_frames, List.append_assoc]
  · rw [Mem.bytes, List.length_map, List.length_range]

end Sys2Proof.Machine

/-! ## Scroll and display mode: the proofs of the statements of spec 44_scroll_mode.md

First which steps can write SCROLL and SCROLLCFG; then the state a scroll operation ends in, and the default dim commands. -/

namespace Sys2Proof.Machine

/-! ### Which steps can write SCROLL and SCROLLCFG (R220, R230) -/

/-- The last act of an operation other than the five leaves SCROLL and SCROLLCFG. -/
theorem planOf_finish_scroll {i : Instr} (hi : writesScroll i = false) (s u : State) :
    ((planOf i s).finish u).scroll = u.scroll ∧ ((planOf i s).finish u).scrollCfg = u.scrollCfg := by
  cases i
  case startscrollright | startscrollleft | startscrolldiagright | startscrolldiagleft | stopscroll => cases hi
  case display flag => cases flag <;> exact ⟨rfl, rfl⟩
  all_goals exact ⟨rfl, rfl⟩

/-- The rest of an operation other than the five leaves SCROLL and SCROLLCFG, whether it completes or waits. -/
theorem continueWith_scroll {i : Instr} (hi : writesScroll i = false) (s v : State) (k : Nat) (cs : List Call) :
    (continueWith (planOf i s) k cs v).scroll = v.scroll ∧
      (continueWith (planOf i s) k cs v).scrollCfg = v.scrollCfg := by
  obtain ⟨u, hu, he⟩ | ⟨-, j, c, u, e, -, hu, he⟩ := continueWith_cases (planOf i s) k cs v
  · obtain ⟨hscroll, hscrollCfg⟩ := planOf_finish_scroll hi s { u with busy := false, seq := none }
    rw [he]
    exact ⟨hscroll.trans hu.scroll, hscrollCfg.trans hu.scrollCfg⟩
  · rw [he]
    exact ⟨hu.scroll, hu.scrollCfg⟩

/-- No step writes SCROLL or SCROLLCFG but one that works on one of the five operations. -/
theorem step_scroll {s t : State} (h : step s = .next t) (hop : ∀ i, s.operation = some i → writesScroll i = false) :
    t.scroll = s.scroll ∧ t.scrollCfg = s.scrollCfg := by
  obtain ⟨-, -, rfl⟩ | ⟨hb, r, rest, i, hp, hd, -, rfl⟩ | ⟨hb, i, k, c, e, hd, -, rfl | rfl⟩ := step_cases h
  · exact ⟨rfl, rfl⟩
  · exact continueWith_scroll (hop i (State.operation_of_port hb hp hd)) s _ _ _
  · exact ⟨rfl, rfl⟩
  · exact continueWith_scroll (hop i (State.operation_of_req hb hd)) s _ _ _

/-! ### Completed scroll operations (R220, R225) -/

/-- An admitted operation without a reset pulse completes when every transfer returns: its last act on the state after its
calls. -/
theorem exec_sends_then_finishes {i : Instr} {s : State} {p : Plan} (ha : s.Ready) (he : s.EngineReturns)
    (hrst : p.rst = false) (hi : exec i s = runOp .afterBegin p s) :
    exec i s = .next (p.finish (s.afterCalls p.calls)) := by
  rw [hi, runOp_next, perform_completes _ _ he, State.accept_afterCalls hrst]
  exact ⟨admission_afterBegin.mpr ha, rfl⟩

/-- A start of scrolling in any direction sends the configure frames and the activate command, and writes its direction and
rows. -/
theorem exec_starts_scroll {i : Instr} {s : State} {k : ScrollCfg} (ha : s.Ready) (he : s.EngineReturns)
    (hi : exec i s = runOp .afterBegin (scrollPlan s.cfg k) s) :
    ∃ t, exec i s = .next t ∧ t.scroll = .active ∧ t.scrollCfg = some k ∧
      s.SentOnly { t with scroll := s.scroll, scrollCfg := s.scrollCfg }
        (commandFrames (s.cfg.scrollCommands k) ++ [evC (s.cfg.opcode .scrollActivate)]) := by
  have hsent := s.afterCalls_sentOnly (scrollPlan s.cfg k).calls
  simp only [scrollPlan, cfgscroll, List.map_append, cmds_frames, cmd_frames] at hsent
  exact ⟨_, exec_sends_then_finishes ha he rfl hi, rfl, rfl, hsent⟩

/-! ### The dim commands (R154) -/

theorem Cfg.dimCommands_standard {cfg : Cfg} (h : cfg.dimFrames = .standard) (flag : Bool) :
    cfg.dimCommands flag =
      [⟨cfg.opcode .contrast, if flag then [cfg.init.dimContrast] else cfg.init.contrast⟩] := by
  cases flag <;> simp [Cfg.dimCommands, h]

/-! ### The statements -/

/-- Settles O23: neither a transport call nor the last act of an operation other than the five writes SCROLL or SCROLLCFG. -/
theorem onlyScrollOperationsWriteScroll : Obligations.OnlyScrollOperationsWriteScroll := by
  refine ⟨fun i s t h hi => ?_, fun s t h hop => step_scroll h hop⟩
  obtain ⟨-, rfl⟩ := exec_next h
  exact continueWith_scroll hi s _ _ _

/-- Settles O54: the four plans are `scrollPlan` with their directions. -/
theorem startScrollSendsAndActivates : Obligations.StartScrollSendsAndActivates := by
  refine ⟨fun _ h => decode_of_find rfl h, fun _ h => decode_of_find rfl h, fun _ h => decode_of_find rfl h,
    fun _ h => decode_of_find rfl h, fun s start stop ha he i k hik => ?_⟩
  obtain ⟨rfl, rfl⟩ | ⟨rfl, rfl⟩ | ⟨rfl, rfl⟩ | ⟨rfl, rfl⟩ := hik <;> exact exec_starts_scroll ha he rfl

/-- Settles O55: its plan is one command, and its last act clears the two fields whatever they held. -/
theorem stopScrollSendsAndDeactivates : Obligations.StopScrollSendsAndDeactivates :=
  ⟨fun _ h => decode_of_find rfl h, fun s ha he =>
    ⟨_, exec_sends_then_finishes (p := planStopscroll s.cfg) ha he rfl rfl, rfl, rfl, s.afterCalls_sentOnly _⟩⟩

/-- Settles O56: for either flag its plan is one command without parameters. -/
theorem invertdisplaySendsTheModeCommand : Obligations.InvertdisplaySendsTheModeCommand :=
  ⟨fun _ h => decode_of_find rfl h, fun _ ha he => ⟨exec_sends_cmd [] he ha rfl, exec_sends_cmd [] he ha rfl⟩⟩

/-- Settles O57: its plan is the configured commands; `Cfg.dimCommands_standard` is the last clause. -/
theorem dimSendsTheDimFrames : Obligations.DimSendsTheDimFrames := by
  refine ⟨fun _ h => decode_of_find rfl h, fun s flag ha he => ?_, fun _ hc =>
    ⟨Cfg.dimCommands_standard hc true, Cfg.dimCommands_standard hc false⟩⟩
  have h := exec_sends (i := .dim flag) (calls := cmds (s.cfg.dimCommands flag)) he ha rfl
  rwa [cmds_frames] at h

end Sys2Proof.Machine

/-! ## Exceptions and hangs: the proofs of the statements of spec 60_exceptions.md

First each item of the validation of CFG; then why no step faults; then an operation whose first transfers return, and the
block that waits for an engine which never does; then the engine's return. -/

namespace Sys2Proof.Machine

/-! ### The items of `valid(CFG)` (R242) -/

theorem PinTarget.isPin_iff {t : PinTarget} : t.isPin = true ↔ ∃ id, t = .pin id := by
  cases t <;> simp [PinTarget.isPin]

theorem Cfg.geometryOk_iff {c : Cfg} :
    c.geometryOk = true ↔ c.w % 2 = 0 ∧ 2 ≤ c.w ∧ 1 ≤ c.h ∧ c.w ≤ 32767 ∧ c.h ≤ 32767 := by
  simp only [Cfg.geometryOk, Bool.and_eq_true, decide_eq_true_eq, and_assoc]

theorem Cfg.engineBindingOk_iff {c : Cfg} :
    c.engineBindingOk = true ↔ (c.busMode = .hw → c.pins.data = .engine ∧ c.pins.clock = .engine) := by
  cases hm : c.busMode <;> simp [Cfg.engineBindingOk, hm]

theorem Cfg.discreteBindingOk_iff {c : Cfg} : c.discreteBindingOk = true ↔ (c.busMode = .bitbang →
    ∃ d k s m, c.pins.data = .pin d ∧ c.pins.clock = .pin k ∧ c.pins.cs = .pin s ∧ c.pins.dc = .pin m) := by
  cases hm : c.busMode <;> simp [Cfg.discreteBindingOk, hm, PinTarget.isPin_iff, and_assoc]

/-- What is kept of a list has no duplicates exactly when each kept value stands at one place of the list. -/
theorem nodup_filter_iff {α : Type} {p : α → Bool} {l : List α} :
    (l.filter p).Nodup ↔ ∀ (m n : Nat) (a : α), p a = true → l[m]? = some a → l[n]? = some a → m = n := by
  rw [List.Nodup, List.pairwise_filter, List.pairwise_iff_getElem]
  constructor
  · intro h m n a ha hm hn
    obtain ⟨hm', hma⟩ := List.getElem?_eq_some_iff.mp hm
    obtain ⟨hn', hna⟩ := List.getElem?_eq_some_iff.mp hn
    obtain hlt | heq | hgt := Nat.lt_trichotomy m n
    · exact absurd (hma.trans hna.symm) (h m n hm' hn' hlt (hma ▸ ha) (hna ▸ ha))
    · exact heq
    · exact absurd (hna.trans hma.symm) (h n m hn' hm' hgt (hna ▸ ha) (hma ▸ ha))
  · intro h m n hm hn hlt hpm _ heq
    have hmn := h m n l[m] hpm (List.getElem?_eq_getElem hm) (heq ▸ List.getElem?_eq_getElem hn)
    omega

theorem Cfg.pinsDistinct_iff {c : Cfg} : c.pinsDistinct = true ↔ ∀ (m n id : Nat),
    [c.pins.data, c.pins.clock, c.pins.cs, c.pins.dc, c.pins.reset][m]? = some (.pin id) →
    [c.pins.data, c.pins.clock, c.pins.cs, c.pins.dc, c.pins.reset][n]? = some (.pin id) → m = n := by
  rw [Cfg.pinsDistinct, decide_eq_true_eq, PinBinding.discretePins, nodup_filter_iff]
  constructor
  · intro h m n id
    exact h m n (.pin id) rfl
  · intro h m n t ht
    obtain ⟨id, rfl⟩ := PinTarget.isPin_iff.mp ht
    exact h m n id

theorem Cfg.countsOk_iff {c : Cfg} : c.countsOk = true ↔
    (∀ k : BeginKey, (c.init.get k).length = (c.cmd.get k.cmdKey).n) ∧
    (c.cmd.get .setColumn).n = 2 ∧ (c.cmd.get .setRow).n = 2 ∧ (c.cmd.get .contrast).n = 1
      ∧ (c.cmd.get .remap).n = 2 ∧ (c.cmd.get .startLine).n = 1 := by
  simp only [Cfg.countsOk, CmdTable.get, Bool.and_eq_true, List.all_eq_true, beq_iff_eq, and_assoc, mem_beginKeys,
    forall_const]

/-- Construction raises no reason exactly when none of the five items fails. -/
theorem Cfg.configInvalid_eq_none_iff {c : Cfg} : c.configInvalid = none ↔ c.valid = true := by
  unfold Cfg.configInvalid
  split_ifs <;> simp_all [Cfg.valid]

/-! ### No step faults (R240) -/

/-- On an even width an operation is refused or performed: the indexer has a meaning there. -/
theorem exec_ne_fault {i : Instr} {s : State} (hw : admission (gateOf i) s = none → s.cfg.w % 2 = 0) (f : Fault) :
    exec i s ≠ .fault f := by
  cases ha : admission (gateOf i) s with
  | some r => simp [exec_refused ha]
  | none =>
    by_cases hs : ∀ x y src w h c, i = .bitmap x y src w h c → sourceBeyond s.cfg src.toNat w h = false
    · simp [exec_perform ha (hw ha) hs]
    · push Not at hs
      obtain ⟨x, y, src, w, h, c, rfl, hbeyond⟩ := hs
      simp [exec_bitmap_of_sourceBeyond (admission_afterBegin.mp ha) (Bool.eq_true_of_not_eq_false hbeyond)]

/-! ### Transfers that return, then one that does not (R255) -/

theorem State.SentCalls.trans {s t u : State} {cs ds : List Call} (h : s.SentCalls t cs) (h' : t.SentCalls u ds) :
    s.SentCalls u (cs ++ ds) := by
  refine ⟨h.toSameCore.trans h'.toSameCore, ?_, ?_, ?_⟩
  · rw [h'.trace, h.trace, List.map_append, List.append_assoc]
  · rw [h'.pinTrace, h.pinTrace, h.cfg, List.flatMap_append, List.append_assoc]
  · rw [h'.pins, h.pins, h.cfg, List.flatMap_append, List.foldl_append]

/-- One call sent, whatever answers of the engine are then left. -/
theorem State.sentCalls_singleton (s : State) (k : Nat) (c : Call) (e : Engine) :
    s.SentCalls (((s.startCall k c).withEngine e).endCall c) [c] :=
  ⟨⟨rfl, rfl, rfl, rfl, by simp [State.withEngine], rfl, rfl, rfl, rfl, rfl, rfl⟩, by simp [State.withEngine],
    by simp [State.withEngine, Call.events], by simp [State.withEngine, Call.events]⟩

/-- An engine whose next `m + 1` answers are returns gives the first of them, and has `m` left. -/
theorem Engine.poll_of_take {e : Engine} {m : Nat} (h : e.script.take (m + 1) = List.replicate (m + 1) true) :
    e.poll = (true, e.after 1) ∧ (e.after 1).script.take m = List.replicate m true := by
  obtain ⟨_ | ⟨answer, script⟩, tail⟩ := e
  · cases h
  · obtain ⟨rfl, hrest⟩ := List.cons.inj h
    exact ⟨rfl, hrest⟩

/-- Once the first `m` transfers have returned, an operation is at its call `m`, with the answers after those `m`. -/
theorem continueWith_returned (p : Plan) : ∀ (m k : Nat) (cs : List Call) (v : State), v.cfg.busMode = .hw →
    m ≤ cs.length → v.engine.script.take m = List.replicate m true →
    ∃ u, v.SentCalls u (cs.take m) ∧ u.engine = v.engine.after m ∧
      continueWith p k cs v = continueWith p (k + m) (cs.drop m) u
  | 0, _, _, v, _, _, _ => ⟨v, ⟨State.SameCore.refl v, by simp, by simp, rfl⟩, rfl, rfl⟩
  | _ + 1, _, [], _, _, hm, _ => by cases hm
  | m + 1, k, c :: cs, v, hhw, hm, he => by
    obtain ⟨hpoll, hleft⟩ := Engine.poll_of_take he
    have hreturn : (v.startCall k c).pollTransfer = (true, (v.startCall k c).withEngine (v.engine.after 1)) := by
      rw [State.pollTransfer_hw (s := v.startCall k c) hhw, State.startCall_engine, hpoll]
      rfl
    obtain ⟨u, hsent, hengine, hrest⟩ := continueWith_returned p m (k + 1) cs
      (((v.startCall k c).withEngine (v.engine.after 1)).endCall c) hhw (Nat.le_of_succ_le_succ hm) hleft
    refine ⟨u, (v.sentCalls_singleton k c _).trans hsent, ?_, ?_⟩
    · simp [hengine, State.withEngine, Engine.after]
    · rw [continueWith_cons, hreturn, if_pos rfl, hrest, Nat.add_right_comm, Nat.add_assoc, List.drop_succ_cons]

/-- The engine that never returns again. -/
def Engine.stalled : Engine := { script := [], tail := false }

theorem State.pollTransfer_stalled {s : State} (hhw : s.cfg.busMode = .hw) (he : s.engine = .stalled) :
    s.pollTransfer = (false, s) := by
  have hsame : { s with engine := .stalled } = s := by rw [← he]
  rw [State.pollTransfer_hw hhw, he]
  exact congrArg (Prod.mk false) hsame

/-- With an engine that never returns again, an operation is left at the start of its next call. -/
theorem continueWith_stalled {v : State} (p : Plan) (k : Nat) (c : Call) (cs : List Call) (hhw : v.cfg.busMode = .hw)
    (he : v.engine = .stalled) : continueWith p k (c :: cs) v = v.startCall k c := by
  rw [continueWith_cons, State.pollTransfer_stalled (s := v.startCall k c) hhw he]
  rfl

/-- An engine that returns from the first `m` transfers of an operation and from no later one leaves it at the start of
its call `m`, the calls before it sent. -/
theorem perform_stalled {s : State} {p : Plan} {m : Nat} (hhw : s.cfg.busMode = .hw) (hm : m < p.calls.length)
    (he : s.engine = { script := List.replicate m true, tail := false }) :
    ∃ u, (s.accept p).SentCalls u (p.calls.take m) ∧ u.engine = .stalled ∧ perform p s = u.startCall m p.calls[m] := by
  obtain ⟨u, hsent, hengine, hrest⟩ := continueWith_returned p m 0 p.calls (s.accept p) hhw hm.le (by simp [he])
  have hstalled : u.engine = .stalled := by simp [hengine, he, Engine.after, Engine.stalled]
  refine ⟨u, hsent, hstalled, ?_⟩
  rw [perform, hrest, Nat.zero_add, List.drop_eq_getElem_cons hm,
    continueWith_stalled p m _ _ (hsent.cfg ▸ hhw) hstalled]

/-- Inside a call that never returns a step changes nothing (R255). -/
theorem step_stalled {u : State} {i : Instr} {p : Plan} {m : Nat} (h : u.Alone i p) (hhw : u.cfg.busMode = .hw)
    (he : u.engine = .stalled) (hm : m < p.calls.length) :
    step (u.startCall m p.calls[m]) = .next (u.startCall m p.calls[m]) := by
  rw [step_startCall h (List.drop_eq_getElem_cons hm), continueWith_stalled p m _ _ hhw he]

/-- The reset pulse of acceptance is no frame. -/
theorem State.accept_frames (s : State) (p : Plan) :
    (s.accept p).trace.filter Event.isFrame = s.trace.filter Event.isFrame := by
  cases hr : p.rst <;> simp [hr, Event.isFrame]

/-- In mode BITBANG an operation is never left waiting (R121). -/
theorem continueWith_bitbang_busy {v : State} (hm : v.cfg.busMode = .bitbang) (i : Instr) (s : State) (k : Nat)
    (cs : List Call) : (continueWith (planOf i s) k cs v).busy = false := by
  obtain ⟨u, -, he⟩ | ⟨hhw, -⟩ := continueWith_cases (planOf i s) k cs v
  · have hf := planOf_finish i s { u with busy := false, seq := none }
    rw [he, State.complete, hf.busy]
  · cases hm.symm.trans hhw

/-- Only an operation without transport calls asks anything of CFG beyond admission. -/
theorem runsOn_of_calls {i : Instr} {s : State} (h : (planOf i s).calls ≠ []) (cfg : Cfg) : runsOn cfg i = true := by
  cases i
  case setpixel | vline | hline | bitmap => exact absurd rfl h
  all_goals rfl

/-! ### The engine's return (R255, R121, R92) -/

/-- In mode HW, where every transfer returns, a poll answers the return and takes one of the engine's answers. -/
theorem State.pollTransfer_returns {s : State} (hhw : s.cfg.busMode = .hw) (h : s.EngineReturns) :
    s.pollTransfer = (true, { s with engine := s.engine.after 1 }) := by
  obtain hb | ⟨hscript, htail⟩ := h
  · cases hhw.symm.trans hb
  · rw [State.pollTransfer_hw hhw, Engine.poll_returns hscript htail]

/-! ### The statements -/

/-- Settles O11, from one equivalence for each item. -/
theorem validIsTheFiveItems : Obligations.ValidIsTheFiveItems := by
  refine ⟨fun c => ?_, fun c => Cfg.configInvalid_eq_none_iff⟩
  rw [Cfg.valid, Bool.and_eq_true, Bool.and_eq_true, Bool.and_eq_true, Bool.and_eq_true, Cfg.geometryOk_iff,
    Cfg.engineBindingOk_iff, Cfg.discreteBindingOk_iff, Cfg.pinsDistinct_iff, Cfg.countsOk_iff, and_assoc, and_assoc,
    and_assoc]

/-- Settles O13: when every transfer returns, all calls are sent, and the last act leaves BUSY, SEQ, CFG and REQ. -/
theorem admittedOperationsComplete : Obligations.AdmittedOperationsComplete := by
  intro i s ha he hw hs
  have hf := planOf_finish i s ((s.accept (planOf i s)).afterCalls (planOf i s).calls)
  refine ⟨_, exec_perform ha hw hs, ?_⟩
  rw [perform_completes _ _ he]
  exact ⟨hf.busy, hf.seq, hf.cfg, hf.req⟩

/-- Settles O14: a BUSY block has a call under way, and a request is admitted only on a valid CFG, whose width is even. -/
theorem invariantStatesNeverFault : Obligations.InvariantStatesNeverFault := by
  intro s f h
  cases hb : s.busy with
  | true =>
    cases hi : s.impatient with
    | true => simp [step_impatient hb hi]
    | false =>
      obtain ⟨⟨p, k, c⟩, hr⟩ := Option.isSome_iff_exists.mp (h.bus.waitCall hb)
      simp [step_engine hb hi hr]
  | false =>
    cases hp : s.port with
    | nil => simp [step_idle hb hp]
    | cons r rest =>
      cases hd : decode r.word with
      | error x => simp [step_unassigned hb hp hd]
      | ok i =>
        rw [step_accept hb hp hd]
        exact exec_ne_fault (s := s.latch r rest)
          (fun ha => Cfg.width_even_of_valid (h.cfgOk.symm.trans (cfgOk_of_admitted ha))) f

/-- Settles O58: the first `m` returns bring the operation to its call `m`; there the engine's step changes nothing. -/
theorem stalledTransferHangs : Obligations.StalledTransferHangs := by
  refine ⟨fun s r i m hb hhw hp hd ha hm he => ?_, fun i s t hm h => ?_⟩
  · have hplan : planOf i (s.latch r []) = planOf i s := planOf_congr i rfl rfl rfl
    obtain ⟨u, hu, hstalled, hperform⟩ := perform_stalled (s := s.latch r []) hhw hm he
    have halone : u.Alone i (planOf i s) :=
      ⟨hu.busy, hu.port, hu.req ▸ hd, (planOf_congr i hu.cfg hu.fb hu.bmp).trans hplan⟩
    refine ⟨u.startCall m (planOf i s).calls[m], ?_, hu.busy, ?_, hu.fb, rfl, ?_, ?_⟩
    · rw [step_accept hb hp hd, exec_next_iff, hplan, hperform]
      exact ⟨ha, runsOn_of_calls (List.ne_nil_of_length_pos (Nat.zero_lt_of_lt hm)) _, rfl⟩
    · rw [State.startCall_pins, Call.opening_cs, hu.cfg]
      rfl
    · rw [State.startCall_trace, hu.trace, List.filter_append, State.accept_frames, filter_isFrame_calls]
      rfl
    · exact step_stalled halone (hu.cfg ▸ hhw) hstalled hm
  · obtain ⟨-, rfl⟩ := exec_next h
    exact continueWith_bitbang_busy (v := s.accept (planOf i s)) hm i s 0 _

/-- Settles O60: the return ends the call under way, and with every later transfer returning too the rest completes. -/
theorem engineReturnResumesTheOperation : Obligations.EngineReturnResumesTheOperation := by
  intro s i pos c hb hhw hi hd hseq hc
  have hr : s.running = some (planOf i s, pos.call, c) := by simp [State.running, hd, hseq, hc]
  refine ⟨fun hpoll => ?_, fun he => ?_⟩
  · rw [step_engine hb hi hr, State.pollTransfer_hw hhw, hpoll]
    rfl
  · have hlate : (State.endCall { s with engine := s.engine.after 1 } c).EngineReturns := he.of_sameCfg rfl (.inr rfl)
    rw [step_engine hb hi hr, State.pollTransfer_returns hhw he, if_pos rfl, continueWith_completes _ _ _ _ hlate]
    simp [State.afterCalls, State.endCall, State.drive, State.emit, hhw, Engine.after, Nat.add_comm]

/-- Settles O12: validation evaluated on each configuration. -/
theorem specConfigurationsValidate : Obligations.SpecConfigurationsValidate := by
  unfold Obligations.SpecConfigurationsValidate
  decide

end Sys2Proof.Machine

/-! ## Mode HW leaves DATA and CLK to the engine: the proof of the statement of spec 70_reset_and_hazards.md

What a call writes in mode HW; then, over `step_cases`, that every step writes pins as its new events say, DATA and CLK never
among them. -/

namespace Sys2Proof.Machine

/-! ### Pin writes without DATA and CLK (R115) -/

/-- No event writes DATA or CLK. -/
def NoDataOrClk (evs : List PinEvent) : Prop := evs.any PinEvent.isDataOrClk = false

theorem NoDataOrClk.append {a b : List PinEvent} (ha : NoDataOrClk a) (hb : NoDataOrClk b) : NoDataOrClk (a ++ b) := by
  rw [NoDataOrClk, List.any_append, ha, hb, Bool.or_false]

theorem NoDataOrClk.flatMap {α : Type} {f : α → List PinEvent} (h : ∀ x, NoDataOrClk (f x)) :
    ∀ xs : List α, NoDataOrClk (xs.flatMap f)
  | [] => rfl
  | x :: xs => (h x).append (NoDataOrClk.flatMap h xs)

/-- Any other event leaves the levels of DATA and CLK. -/
theorem Pins.apply_data_clk {e : PinEvent} (h : e.isDataOrClk = false) (p : Pins) :
    (p.apply e).data = p.data ∧ (p.apply e).clk = p.clk := by
  cases e with
  | pin sig l =>
    cases sig with
    | data | clk => cases h
    | cs | dc => exact ⟨rfl, rfl⟩
  | hw bs => exact ⟨rfl, rfl⟩

theorem NoDataOrClk.foldl_apply : ∀ {evs : List PinEvent}, NoDataOrClk evs → ∀ p : Pins,
    (evs.foldl Pins.apply p).data = p.data ∧ (evs.foldl Pins.apply p).clk = p.clk
  | [], _, _ => ⟨rfl, rfl⟩
  | e :: es, h, p => by
    obtain ⟨he, hes⟩ := Bool.or_eq_false_iff.mp (List.any_cons.symm.trans h)
    obtain ⟨hdata, hclk⟩ := Pins.apply_data_clk he p
    obtain ⟨hdata', hclk'⟩ := NoDataOrClk.foldl_apply hes (p.apply e)
    exact ⟨hdata'.trans hdata, hclk'.trans hclk⟩

theorem noDataOrClk_closing (cfg : Cfg) : NoDataOrClk (closing cfg) := rfl

/-- In mode HW the bytes of a call go to the engine as one transfer. -/
theorem Call.noDataOrClk_opening {cfg : Cfg} (h : cfg.busMode = .hw) (c : Call) : NoDataOrClk (c.opening cfg) := by
  simp [NoDataOrClk, Call.opening, shift, h, PinEvent.isDataOrClk]

theorem Call.noDataOrClk_events {cfg : Cfg} (h : cfg.busMode = .hw) (c : Call) : NoDataOrClk (c.events cfg) :=
  (c.noDataOrClk_opening h).append (noDataOrClk_closing cfg)

/-! ### A step in mode HW (R27, R277) -/

/-- `t` is `s` with pin writes added that are in the pin-level trace and leave out DATA and CLK. -/
structure State.DrivesOtherPins (s t : State) : Prop where
  cfg : t.cfg = s.cfg
  events : ∃ evs, t.pinTrace = s.pinTrace ++ evs ∧ t.pins = evs.foldl Pins.apply s.pins ∧ NoDataOrClk evs

theorem State.DrivesOtherPins.of_pins_eq {s t : State} (hc : t.cfg = s.cfg) (ht : t.pinTrace = s.pinTrace)
    (hp : t.pins = s.pins) : s.DrivesOtherPins t :=
  ⟨hc, [], by simp [ht], hp, rfl⟩

theorem State.DrivesOtherPins.trans {s t u : State} (h : s.DrivesOtherPins t) (h' : t.DrivesOtherPins u) :
    s.DrivesOtherPins u := by
  obtain ⟨hc, evs, he, hp, hn⟩ := h
  obtain ⟨hc', evs', he', hp', hn'⟩ := h'
  exact ⟨hc'.trans hc, evs ++ evs', by simp [he', he], by simp [hp', hp], hn.append hn'⟩

theorem State.SentCalls.drivesOtherPins {s u : State} {cs : List Call} (h : s.SentCalls u cs) (hm : s.cfg.busMode = .hw) :
    s.DrivesOtherPins u :=
  ⟨h.cfg, _, h.pinTrace, h.pins, NoDataOrClk.flatMap (Call.noDataOrClk_events hm) cs⟩

/-- So does the rest of an operation: its last act drives no pin, and of a call it waits in the opening is driven. -/
theorem State.DrivesOtherPins.continueWith {s v : State} (h : s.DrivesOtherPins v) (hm : s.cfg.busMode = .hw) (i : Instr)
    (s' : State) (k : Nat) (cs : List Call) : s.DrivesOtherPins (continueWith (planOf i s') k cs v) := by
  have hv : v.cfg.busMode = .hw := h.cfg ▸ hm
  refine h.trans ?_
  obtain ⟨u, hu, he⟩ | ⟨-, j, c, u, e, -, hu, he⟩ := continueWith_cases (planOf i s') k cs v <;> rw [he]
  · have hf := planOf_finish i s' { u with busy := false, seq := none }
    exact (hu.drivesOtherPins hv).trans (.of_pins_eq hf.cfg hf.pinTrace hf.pins)
  · exact (hu.drivesOtherPins hv).trans ⟨rfl, _, rfl, rfl, c.noDataOrClk_opening (hu.cfg ▸ hv)⟩

theorem step_drivesOtherPins {s t : State} (hm : s.cfg.busMode = .hw) (h : step s = .next t) : s.DrivesOtherPins t := by
  obtain ⟨-, -, rfl⟩ | ⟨-, r, rest, i, -, -, -, rfl⟩ | ⟨-, i, k, c, e, -, -, rfl | rfl⟩ := step_cases h
  · exact .of_pins_eq rfl rfl rfl
  · have hacc : s.DrivesOtherPins ((s.latch r rest).accept (planOf i s)) := .of_pins_eq rfl rfl rfl
    exact hacc.continueWith hm i s _ _
  · exact .of_pins_eq rfl rfl rfl
  · have hend : s.DrivesOtherPins (State.endCall { s with engine := e } c) :=
      ⟨rfl, _, rfl, rfl, noDataOrClk_closing s.cfg⟩
    exact hend.continueWith hm i s _ _

/-! ### The statement -/

/-- Settles O22: the trace is empty at construction, and a step in mode HW appends no DATA and no CLK event, so that neither
level moves. -/
theorem enginePinsAreNeverBitBanged : Obligations.EnginePinsAreNeverBitBanged := by
  refine ⟨fun _ _ => rfl, fun s t hm hs h => ?_⟩
  obtain ⟨-, evs, htrace, hpins, hn⟩ := step_drivesOtherPins hm h
  rw [htrace, hpins]
  exact ⟨NoDataOrClk.append hs hn, hn.foldl_apply s.pins⟩

end Sys2Proof.Machine

/-! ## An odd width: the proof of the statement of log entry 13 (20_memory.md R54) -/

namespace Sys2Proof.Machine

/-- An admitted pixel operation on an odd width stops by name, whatever its plan. -/
theorem runPixelOp_of_odd {s : State} (ha : s.Ready) (hw : s.cfg.w % 2 = 1) (p : Plan) :
    runPixelOp p s = .fault .oddWidth := by
  simp [runPixelOp, admission_afterBegin.mpr ha, hw]

/-- An admitted BITMAP with its source inside BMP is run as a pixel operation, on any width. -/
theorem exec_bitmap_of_sourceInside {s : State} (ha : s.Ready) {src : Arg} {w h : Int}
    (hs : sourceBeyond s.cfg src.toNat w h = false) (x y : Int) (color : Color) :
    exec (.bitmap x y src w h color) s = runPixelOp (planBitmap s.cfg s.bmp x y src w h color) s := by
  simp [exec, execBitmap, admission_afterBegin.mpr ha, hs]

/-- Settles O15: each of the four is run as a pixel operation, BITMAP once its source is known to be inside BMP. -/
theorem oddWidthStopsThePixelOperations : Obligations.OddWidthStopsThePixelOperations := by
  intro s x y l w h src c ha hw
  have hstop : ∀ p, runPixelOp p s = .fault .oddWidth := runPixelOp_of_odd ha hw
  exact ⟨hstop (planSetpixel s.cfg x y c), hstop (planVline s.cfg x y l c), hstop (planHline s.cfg x y l c),
    fun hs => (exec_bitmap_of_sourceInside ha hs x y c).trans (hstop _)⟩

end Sys2Proof.Machine
